-- ==== Sys2Proof/Word.lean ====
section
/-! DEFINITION. The word types of the QDB: 32-bit words (R44, R60), 64-bit opaque addresses (R42), bytes (R44). -/

namespace Sys2Proof

/-- The unit of transfer (R44), `u32` of R11. -/
abbrev Word := BitVec 32

/-- An opaque address field (R42): the QDB copies it and never interprets it. -/
abbrev Addr := BitVec 64

/-- A byte of a word carried on a byte-addressed bus (R44). -/
abbrev Byte := BitVec 8

end Sys2Proof
end

