-- ==== Sys2Proof/Syntax.lean ====
section
/-! DEFINITION. The nine ops of the QDB (R62) with their operands (R63, R64): one constructor per row of
spec/opcode_table.json. Every field has exactly the width the spec gives it, so no term carries junk bits. -/

namespace Sys2Proof

/-- The op names of R62. -/
inductive OpCode where
  | quant | qexp | qnorm | qshift | dshift | mrot | munrot | dispc | disps
  deriving DecidableEq, Repr

/-- The operands DISPC and DISPS share: words W1 to W13 of formats FC and FS (R64). `mode` and `divisor` are read as
`i32`, the dimensions as `u32`; addresses are 64 bits. -/
structure DispatchArgs where
  mode    : Word
  divisor : Word
  dimI    : Word
  dimJ    : Word
  dimK    : Word
  lhs     : Addr
  rhs     : Addr
  out     : Addr
  bias    : Addr
  deriving DecidableEq, Repr

/-- Row strides in elements: words W14 to W17 of format FS (R64), and X12 to X15 of a command (R69). -/
structure Strides where
  lhs  : Word
  rhs  : Word
  out  : Word
  bias : Word
  deriving DecidableEq, Repr

/-- The four buffers a dispatch names (R40, R51). -/
inductive Buffer where
  | lhs | rhs | out | bias
  deriving DecidableEq, Repr

/-- A decoded request. -/
inductive Instr where
  /-- QUANT b (R107). -/
  | quant (b : Word)
  /-- QEXP b (R108). -/
  | qexp (b : Word)
  /-- QNORM b (R109). -/
  | qnorm (b : Word)
  /-- QSHIFT e (R110): `e` is 8 bits, W1[31:8] must be 0 in the packet (R63). -/
  | qshift (e : BitVec 8)
  /-- DSHIFT d (R140). -/
  | dshift (d : Word)
  /-- MROT m (R141). -/
  | mrot (m : Word)
  /-- MUNROT i (R142). -/
  | munrot (i : Word)
  /-- DISPC[.relu][.bias] (R143): it has no `rep` flag (R66). -/
  | dispc (relu biasEn : Bool) (args : DispatchArgs)
  /-- DISPS[.relu][.rep][.bias] (R144). -/
  | disps (relu rep biasEn : Bool) (args : DispatchArgs) (strides : Strides)
  deriving DecidableEq, Repr

/-- The op an instruction belongs to. -/
def Instr.opCode : Instr → OpCode
  | .quant _ => .quant
  | .qexp _ => .qexp
  | .qnorm _ => .qnorm
  | .qshift _ => .qshift
  | .dshift _ => .dshift
  | .mrot _ => .mrot
  | .munrot _ => .munrot
  | .dispc _ _ _ => .dispc
  | .disps _ _ _ _ _ => .disps

end Sys2Proof
end

