-- ==== Sys2Proof/WellFormed.lean ====
section
/-! DEFINITION. When a request packet is well formed, said from the op map R62 alone, row by row, and apart from the
decoder (which Decode.lean writes from R61 to R67 in its own way; that the two agree is an obligation). The terms of
`Instr` have exact field widths and are all well formed; what can be ill formed is a packet. -/

namespace Sys2Proof

/-- A row of the op map R62: op code, header mask and match, packet length, and the operand bits of W1 that must be 0
(R63: only QSHIFT has any). -/
structure EncodingRow where
  op       : OpCode
  code     : BitVec 4
  mask     : Word
  value    : Word
  length   : Nat
  reserved : Word
  deriving DecidableEq, Repr

/-- The op map R62. -/
def encodingRows : List EncodingRow :=
  [ ⟨.quant,  0x1, 0xFFFFFFFF, 0x00000001, 2, 0⟩,
    ⟨.qexp,   0x2, 0xFFFFFFFF, 0x00000002, 2, 0⟩,
    ⟨.qnorm,  0x3, 0xFFFFFFFF, 0x00000003, 2, 0⟩,
    ⟨.qshift, 0x4, 0xFFFFFFFF, 0x00000004, 2, 0xFFFFFF00⟩,
    ⟨.dshift, 0x5, 0xFFFFFFFF, 0x00000005, 2, 0⟩,
    ⟨.mrot,   0x6, 0xFFFFFFFF, 0x00000006, 2, 0⟩,
    ⟨.munrot, 0x7, 0xFFFFFFFF, 0x00000007, 2, 0⟩,
    ⟨.dispc,  0x8, 0xFFFFFFAF, 0x00000008, 14, 0⟩,
    ⟨.disps,  0x9, 0xFFFFFF8F, 0x00000009, 18, 0⟩ ]

/-- The header has the row's fixed bits (R62, R66). -/
def EncodingRow.headerOk (r : EncodingRow) (w0 : Word) : Bool := w0 &&& r.mask == r.value

/-- The packet has the row's length (R60, R67). -/
def EncodingRow.lengthOk (r : EncodingRow) (p : List Word) : Bool := p.length == r.length

/-- The reserved bits of the operand word are 0 (R63, R67). -/
def EncodingRow.operandOk (r : EncodingRow) (w1 : Word) : Bool := w1 &&& r.reserved == 0

/-- The packet is an instance of the row's op. -/
def EncodingRow.accepts (r : EncodingRow) (p : List Word) : Bool :=
  r.headerOk (p.headD 0) && r.lengthOk p && r.operandOk (p.getD 1 0)

/-- A packet is well formed when some row of R62 accepts it: a known op code, no reserved header bit, the op's length,
no reserved operand bit. -/
def packetWellFormed (p : List Word) : Bool := encodingRows.any (fun r => r.accepts p)

end Sys2Proof
end

