-- ==== Sys2Proof/Decode.lean ====
section
/-! DEFINITION. The decoder (R60 to R67), total on any list of words and on any list of bytes, rejecting by name; after
it the encoder and the assembler of listings (R73). -/

namespace Sys2Proof

/-! ### Fields (R10, R65) -/

/-- `W0[3:0]`, the op field of a header (R61). -/
def opField (w0 : Word) : BitVec 4 := w0.extractLsb' 0 4

/-- The `relu` flag, header bit 4 (R61). -/
def reluBit (w0 : Word) : Bool := w0.getLsbD 4

/-- The `rep` flag, header bit 5 (R61). -/
def repBit (w0 : Word) : Bool := w0.getLsbD 5

/-- The `bias_en` flag, header bit 6 (R61). -/
def biasBit (w0 : Word) : Bool := w0.getLsbD 6

/-- `{hi, lo}`: a 64-bit address from its two words (R44, R64). -/
def joinAddr (lo hi : Word) : Addr := (hi.setWidth 64 <<< 32) ||| lo.setWidth 64

/-- Address bits [31:0], the word that comes first (R44). -/
def addrLo (a : Addr) : Word := a.extractLsb' 0 32

/-- Address bits [63:32], the word that comes second (R44). -/
def addrHi (a : Addr) : Word := a.extractLsb' 32 32

/-! ### The op map (R62) -/

/-- The op code of an op (R62). -/
def opCodeBits : OpCode → BitVec 4
  | .quant => 0x1
  | .qexp => 0x2
  | .qnorm => 0x3
  | .qshift => 0x4
  | .dshift => 0x5
  | .mrot => 0x6
  | .munrot => 0x7
  | .dispc => 0x8
  | .disps => 0x9

/-- The op an op field names, if any: 0x0 and 0xA to 0xF are reserved (R62). -/
def opOfField (f : BitVec 4) : Option OpCode :=
  if f = 0x1 then some .quant
  else if f = 0x2 then some .qexp
  else if f = 0x3 then some .qnorm
  else if f = 0x4 then some .qshift
  else if f = 0x5 then some .dshift
  else if f = 0x6 then some .mrot
  else if f = 0x7 then some .munrot
  else if f = 0x8 then some .dispc
  else if f = 0x9 then some .disps
  else none

/-- `LEN(op)` in words (R62). -/
def packetLength : OpCode → Nat
  | .dispc => 14
  | .disps => 18
  | _ => 2

/-- The header bits an op allows to be 1 beside its op code (R66). -/
def flagBits : OpCode → Word
  | .dispc => 0x00000050
  | .disps => 0x00000070
  | _ => 0

/-- Some reserved header bit is 1 (R61, R66): a bit above the op field that the op does not allow. -/
def reservedHeaderSet (op : OpCode) (w0 : Word) : Bool :=
  w0 &&& ~~~(0x0000000F ||| flagBits op) != 0

/-! ### Decoding (R67) -/

/-- Why a packet is not decoded (R67). Every one is answered with ILLEGAL_OPERATION (R174). -/
inductive DecodeError where
  /-- No word at all: a packet has at least one (R60), so the ports never deliver this. -/
  | emptyPacket
  /-- The op field is 0x0 or 0xA to 0xF. -/
  | reservedOp
  /-- A reserved header bit is 1. -/
  | reservedHeaderBit
  /-- The packet is shorter or longer than `LEN(op)`. -/
  | wrongLength
  /-- QSHIFT with `W1[31:8] ≠ 0`. -/
  | reservedOperandBits
  /-- A byte stream that is not a whole number of words (R44): only the byte view meets it. -/
  | partialWord
  deriving DecidableEq, Repr

/-- The operands of formats FC and FS from words W1 to W13 (R64). -/
def dispatchArgs (w1 w2 w3 w4 w5 w6 w7 w8 w9 w10 w11 w12 w13 : Word) : DispatchArgs :=
  { mode := w1, divisor := w2, dimI := w3, dimJ := w4, dimK := w5,
    lhs := joinAddr w6 w7, rhs := joinAddr w8 w9, out := joinAddr w10 w11, bias := joinAddr w12 w13 }

/-- The operand words of an op whose header has been accepted (R63, R64). -/
def decodeOperands (op : OpCode) (w0 : Word) (rest : List Word) : Except DecodeError Instr :=
  match op, rest with
  | .quant, [b] => .ok (.quant b)
  | .qexp, [b] => .ok (.qexp b)
  | .qnorm, [b] => .ok (.qnorm b)
  | .qshift, [w1] =>
    if w1.extractLsb' 8 24 = 0 then .ok (.qshift (w1.extractLsb' 0 8)) else .error .reservedOperandBits
  | .dshift, [d] => .ok (.dshift d)
  | .mrot, [m] => .ok (.mrot m)
  | .munrot, [i] => .ok (.munrot i)
  | .dispc, [w1, w2, w3, w4, w5, w6, w7, w8, w9, w10, w11, w12, w13] =>
    .ok (.dispc (reluBit w0) (biasBit w0) (dispatchArgs w1 w2 w3 w4 w5 w6 w7 w8 w9 w10 w11 w12 w13))
  | .disps, [w1, w2, w3, w4, w5, w6, w7, w8, w9, w10, w11, w12, w13, w14, w15, w16, w17] =>
    .ok (.disps (reluBit w0) (repBit w0) (biasBit w0)
      (dispatchArgs w1 w2 w3 w4 w5 w6 w7 w8 w9 w10 w11 w12 w13) ⟨w14, w15, w16, w17⟩)
  | _, _ => .error .wrongLength

/-- `decode(P)` (R67). -/
def decode : List Word → Except DecodeError Instr
  | [] => .error .emptyPacket
  | w0 :: rest =>
    match opOfField (opField w0) with
    | none => .error .reservedOp
    | some op => if reservedHeaderSet op w0 then .error .reservedHeaderBit else decodeOperands op w0 rest

/-- The op field a failed decode's response echoes (R174): `W0[3:0]` as received. -/
def echoedOp (p : List Word) : BitVec 4 := opField (p.headD 0)

/-! ### The byte view (R44) -/

/-- Byte `k` of a word is bits `[8k+7:8k]` (R44). -/
def wordBytes (w : Word) : List Byte :=
  [w.extractLsb' 0 8, w.extractLsb' 8 8, w.extractLsb' 16 8, w.extractLsb' 24 8]

/-- The little-endian word of four bytes (R44). -/
def wordOfBytes (b0 b1 b2 b3 : Byte) : Word :=
  (b3.setWidth 32 <<< 24) ||| (b2.setWidth 32 <<< 16) ||| (b1.setWidth 32 <<< 8) ||| b0.setWidth 32

/-- A packet's words as a byte bus carries them (R44). -/
def bytesOfPacket (p : List Word) : List Byte := p.flatMap wordBytes

/-- The words of a byte stream, if it is a whole number of words (R44). -/
def packetOfBytes : List Byte → Option (List Word)
  | [] => some []
  | b0 :: b1 :: b2 :: b3 :: rest =>
    match packetOfBytes rest with
    | some p => some (wordOfBytes b0 b1 b2 b3 :: p)
    | none => none
  | _ => none

/-- The decoder on bytes. -/
def decodeBytes (bs : List Byte) : Except DecodeError Instr :=
  match packetOfBytes bs with
  | some p => decode p
  | none => .error .partialWord

/-! ### Encoding (R61 to R64) -/

/-- A one-bit header flag at its place. -/
def flagAt (b : Bool) (k : Nat) : Word := if b then 1#32 <<< k else 0

/-- The header of an op with its flags (R61). -/
def headerWord (op : OpCode) (relu rep biasEn : Bool) : Word :=
  (opCodeBits op).setWidth 32 ||| flagAt relu 4 ||| flagAt rep 5 ||| flagAt biasEn 6

/-- Words W1 to W13 (R64). -/
def argWords (a : DispatchArgs) : List Word :=
  [a.mode, a.divisor, a.dimI, a.dimJ, a.dimK, addrLo a.lhs, addrHi a.lhs, addrLo a.rhs, addrHi a.rhs,
    addrLo a.out, addrHi a.out, addrLo a.bias, addrHi a.bias]

/-- Words W14 to W17 (R64). -/
def strideWords (s : Strides) : List Word := [s.lhs, s.rhs, s.out, s.bias]

/-- The request packet of an instruction. -/
def encode : Instr → List Word
  | .quant b => [headerWord .quant false false false, b]
  | .qexp b => [headerWord .qexp false false false, b]
  | .qnorm b => [headerWord .qnorm false false false, b]
  | .qshift e => [headerWord .qshift false false false, e.setWidth 32]
  | .dshift d => [headerWord .dshift false false false, d]
  | .mrot m => [headerWord .mrot false false false, m]
  | .munrot i => [headerWord .munrot false false false, i]
  | .dispc relu biasEn a => headerWord .dispc relu false biasEn :: argWords a
  | .disps relu rep biasEn a st => headerWord .disps relu rep biasEn :: (argWords a ++ strideWords st)

/-! ### The host's view of the opcode table -/

/-- Word `k` of a packet given as one number, bit 0 the least significant bit of W0. -/
def wordOfNumber (w k : Nat) : Word := BitVec.ofNat 32 (w >>> (32 * k))

/-- How many words the packet of a table word has: `LEN(op)` of the op its header names, or as many as `nbits` needs
where that is more or where the op is reserved. -/
def tablePacketLength (nbits w : Nat) : Nat :=
  match opOfField (opField (wordOfNumber w 0)) with
  | some op => max (packetLength op) ((nbits + 31) / 32)
  | none => max 1 ((nbits + 31) / 32)

/-- The packet of a table word of `nbits` bits: the bits above `nbits` are 0. -/
def tablePacket (nbits w : Nat) : List Word :=
  (List.range (tablePacketLength nbits w)).map (wordOfNumber (w % 2 ^ nbits))

/-- The instruction the decoder reads from a table word. The words are laid out as a byte bus carries them (R44) and
given to the byte decoder. -/
def decodeTableWord (nbits w : Nat) : Option Instr :=
  match decodeBytes (bytesOfPacket (tablePacket nbits w)) with
  | .ok i => some i
  | .error _ => none

/-! ### Listings (R73) -/

/-- The flags of a listing line. -/
inductive AsmFlag where
  | relu | rep | bias
  deriving DecidableEq, Repr

/-- A numeric operand of a listing line: decimal, or hexadecimal (the raw bits). -/
inductive AsmOperand where
  | dec (v : Int)
  | hex (v : Nat)
  deriving DecidableEq, Repr

/-- An unsigned operand of `n` bits. -/
def AsmOperand.unsigned (n : Nat) : AsmOperand → Option (BitVec n)
  | .dec v => if 0 ≤ v ∧ v < 2 ^ n then some (BitVec.ofInt n v) else none
  | .hex v => if v < 2 ^ n then some (BitVec.ofNat n v) else none

/-- An `i32` operand: decimal may be negative, hexadecimal is the raw word (R73). -/
def AsmOperand.signed32 : AsmOperand → Option Word
  | .dec v => if -(2 ^ 31) ≤ v ∧ v < 2 ^ 31 then some (BitVec.ofInt 32 v) else none
  | .hex v => if v < 2 ^ 32 then some (BitVec.ofNat 32 v) else none

/-- The thirteen packet words that the nine operands DISPC and DISPS share fill (R64, R73). -/
def assembleArgs (mode divisor i j k lhs rhs out bias : AsmOperand) : Option DispatchArgs :=
  match mode.signed32, divisor.signed32, i.unsigned 32, j.unsigned 32, k.unsigned 32,
    lhs.unsigned 64, rhs.unsigned 64, out.unsigned 64, bias.unsigned 64 with
  | some m, some d, some i', some j', some k', some l, some r, some o, some b => some ⟨m, d, i', j', k', l, r, o, b⟩
  | _, _, _, _, _, _, _, _, _ => none

/-- The four stride operands of DISPS (R73). -/
def assembleStrides (l r o b : AsmOperand) : Option Strides :=
  match l.unsigned 32, r.unsigned 32, o.unsigned 32, b.unsigned 32 with
  | some l', some r', some o', some b' => some ⟨l', r', o', b'⟩
  | _, _, _, _ => none

/-- The request a listing line `MNEMONIC[.flag…] operand, …` stands for (R73); none where it has a flag or an operand its
mnemonic does not take. -/
def assemble (op : OpCode) (flags : List AsmFlag) (operands : List AsmOperand) : Option Instr :=
  let relu := flags.contains .relu
  let rep := flags.contains .rep
  let biasEn := flags.contains .bias
  match op, operands with
  | .dispc, [m, d, i, j, k, l, r, o, b] =>
    if rep then none else (assembleArgs m d i j k l r o b).map (Instr.dispc relu biasEn)
  | .disps, [m, d, i, j, k, l, r, o, b, sl, sr, so, sb] =>
    match assembleArgs m d i j k l r o b, assembleStrides sl sr so sb with
    | some a, some st => some (.disps relu rep biasEn a st)
    | _, _ => none
  | .quant, [b] => if flags = [] then (b.unsigned 32).map Instr.quant else none
  | .qexp, [b] => if flags = [] then (b.unsigned 32).map Instr.qexp else none
  | .qnorm, [b] => if flags = [] then (b.unsigned 32).map Instr.qnorm else none
  | .qshift, [e] => if flags = [] then (e.unsigned 8).map Instr.qshift else none
  | .dshift, [d] => if flags = [] then d.signed32.map Instr.dshift else none
  | .mrot, [m] => if flags = [] then m.signed32.map Instr.mrot else none
  | .munrot, [i] => if flags = [] then i.signed32.map Instr.munrot else none
  | _, _ => none

end Sys2Proof
end

