-- ==== Sys2Proof/Config.lean ====
section
/-! DEFINITION. What an implementation fixes (R7) and the values the spec leaves free (R15 `draw32`, and the contents of a
buffer after a race, R51).
The mode count `M` is a build parameter that every claim must hold for; it rides in the state, where no step changes
it (R31, log entry 2). -/

namespace Sys2Proof

/-- `draw32()` (R15): the n-th unspecified 32-bit word. It has no body: nothing can be proved of its value. FREE VALUE,
log entry 3. -/
opaque Config.draw32 : Nat → Word

/-- What an address names is whatever the executor gives it (R42): whether the storage at an address is part of a buffer
of the command with these words X0 to X18 (R69). It has no body: no extent and no overlap can be proved or refuted. FREE
VALUE, log entry 19. -/
opaque Config.inBuffer : Buffer → List Word → Addr → Bool

/-- The n-th byte the spec gives no value for that the host reads: of a buffer after a race, where every value is admitted
(R51, U5), or of storage nothing has been written to. It has no body. FREE VALUE, log entry 20. -/
opaque Config.freeByte : Nat → Byte

/-- `INT_W` (R7): `bitWidth(int)` of the shift formula. -/
def Config.intW : Nat := 32

/-- `M` of the reference configuration (R7), less one. -/
def Config.referenceModesPred : Fin 256 := 2

end Sys2Proof
end

