-- ==== Sys2Proof/Machine/State.lean ====
section
/-! DEFINITION. The state of the QDB and of its surroundings as plain data (R8, R20 to R32), and the state after reset.
The QDB has no architectural registers, no program counter, no flags and no memory (R20, R40): what it holds is the
phase of the transaction in progress. -/

namespace Sys2Proof.Machine

/-- The status codes that are ever produced (R171). -/
inductive Status where
  | ok | invalidArgument | executorFailure | illegalOperation
  deriving DecidableEq, Repr

/-- A response packet (R68): status and echoed op of word R0, and words R1 and R2. -/
structure Response where
  status : Status
  op     : BitVec 4
  r1     : Word
  r2     : Word
  deriving DecidableEq, Repr

/-- The executor command record (R69), word by word in `ExecCmd.words`. -/
structure ExecCmd where
  internalMode  : Word
  dimI          : Word
  dimJ          : Word
  dimK          : Word
  lhs           : Addr
  rhs           : Addr
  out           : Addr
  bias          : Addr
  strides       : Strides
  activation    : Bool
  repeatingBias : Bool
  biasEn        : Bool
  shift         : Word
  relu6Shift    : Word
  deriving DecidableEq, Repr

/-- A command with the select that goes with it (R69, R136). The select port is `M` bits wide and `M ≤ 256` (R7): it is
held in 256 bits, of which those at `M` and above do not exist and are 0 (log entry 7). -/
structure Issued where
  cmd : ExecCmd
  sel : BitVec 256
  deriving DecidableEq, Repr

/-- A trace record (R72). -/
inductive TraceRec where
  /-- `T_BACKEND`: the request's mode word, the internal mode, the op. -/
  | backend (mode internalMode : Word) (op : BitVec 4)
  /-- `T_DIMS`: I, J, K. -/
  | dims (i j k : Word)
  deriving DecidableEq, Repr

/-- The two dispatch ops a `WAIT_EXEC` phase can carry (R22). -/
inductive DispatchOp where
  | dispc | disps
  deriving DecidableEq, Repr

/-- A dispatch in flight: its op, its external mode word (for `T_BACKEND`, R72) and its command. -/
structure Flight where
  op     : DispatchOp
  mode   : Word
  issued : Issued
  deriving DecidableEq, Repr

/-- What a dispatch puts on the trace and command ports, in this order (R29). -/
inductive PortItem where
  | backend | dims | command
  deriving DecidableEq, Repr

/-- How far the ports are with a dispatch in flight (R27, R29). -/
inductive Stage where
  /-- The item is the next to appear; `shown` says whether its valid is 1 now. `due .command true` is `WAIT_CMD`. -/
  | due (item : PortItem) (shown : Bool)
  /-- The executor has taken the command. -/
  | taken
  deriving DecidableEq, Repr

/-- The phase of the transaction in progress (R22), with the signal-level sub-phases. -/
inductive Phase where
  /-- `IDLE`. -/
  | idle
  /-- `RECV`: these words of a request have been collected (R25). -/
  | recv (words : List Word)
  /-- `WAIT_EXEC(op)`; `WAIT_CMD` is the stage `due .command true`. -/
  | waitExec (flight : Flight) (stage : Stage)
  /-- `RESP(r)`: word `next` of the response is the next to be taken; `shown` says whether `rsp_valid` is 1 (R26). -/
  | resp (r : Response) (next : Fin 3) (shown : Bool)
  deriving DecidableEq, Repr

/-- A command in the executor's hands (R8), with what the executor has written for it so far, oldest first. -/
structure Taken where
  cmd   : ExecCmd
  wrote : List Host.Cell
  deriving DecidableEq, Repr

/-- What the executor did with a command: `EXEC` of R7 for this command, what it wrote and the completion `(ok, err)`
(R71). -/
structure Completion where
  cmd   : ExecCmd
  wrote : List Host.Cell
  ok    : Bool
  err   : Word
  deriving DecidableEq, Repr

/-- A buffer of a command (R40). Which addresses it has is `Config.inBuffer`. -/
structure Region where
  which : Buffer
  cmd   : ExecCmd
  deriving DecidableEq, Repr

/-- What the host does with storage (R51): reads it, writes it, frees it. -/
inductive HostAccess where
  | read (a : Addr)
  | write (a : Addr) (b : Byte)
  | free (a : Addr)
  deriving DecidableEq, Repr

/-- A write of the executor (R8), for the command at position `slot` of those it holds. -/
structure ExecWrite where
  slot : Nat
  addr : Addr
  byte : Byte
  deriving DecidableEq, Repr

/-- The inputs at one rising edge of `clk`: one field per input port (R24); what host and executor do to buffers meanwhile,
which passes no port of the QDB (R40); the executor's reset, which passes none either (R203); and three of the model's
own: whether an attached trace sink takes the record on the trace port (R29), which of the executor's writes become
visible to the host (R47), and whether the QDB's unspecified latency lets it move on (R30). -/
structure Edge where
  rst          : Bool
  reqValid     : Bool
  reqData      : Word
  reqLast      : Bool
  rspReady     : Bool
  cmdReady     : Bool
  doneValid    : Bool
  doneOk       : Bool
  doneErr      : Word
  /-- The host's accesses to storage, in order (R51). -/
  hostAccesses : List HostAccess
  /-- The executor's own reset: the QDB does not drive it (R201), the platform may pulse it with `rst` (R203). Log
  entry 23. -/
  execRst      : Bool
  /-- The executor's writes, in order (R7 `EXEC`, R8). -/
  execWrites   : List ExecWrite
  /-- The positions, among the executor's writes not yet visible, of those that become visible (R47, U14). -/
  visible      : List Nat
  sinkTakes    : Bool
  advance      : Bool
  deriving DecidableEq, Repr

/-- The surroundings of the QDB: the executor, the trace sink, and the buffers host and executor share. The QDB reads none
of it (R21, R40). -/
structure Around where
  /-- The commands the executor has taken and not completed, oldest first (R28, R201). -/
  executor  : List Taken
  /-- The commands it has completed, oldest first (R208). -/
  completed : List Completion
  /-- The commands a reset of the executor has made it give up, oldest first (R203). -/
  dropped   : List Taken
  /-- The executor's writes that are not visible to the host, oldest first (R47, U14). -/
  pending   : List Host.Cell
  /-- The contents of storage as the host sees it, addresses strictly rising (`Memory.wf`). An unlisted address has no
  value the spec gives. Log entry 12. -/
  mem       : List Host.Cell
  /-- The buffers on which a broken duty has made a race (R51): every value is admitted for their contents. Log entry 20. -/
  raced     : List Region
  /-- What the host has read, oldest first: address and value. -/
  hostReads : List Host.Cell
  /-- The model's own: how many `freeByte` values have been used. Log entry 20. -/
  freeReads : Nat
  /-- The trace records a sink has taken, oldest first (R29). -/
  sink      : List TraceRec
  deriving DecidableEq, Repr

/-- The whole system state. The QDB's own part is `inReset`, `phase` and the build parameter; the rest is whose the buffers
are (R205), the observable result of a run (R208) and the other agents (R8). -/
structure State where
  /-- `M − 1` (R7: `1 ≤ M ≤ 256`). A build parameter, not a register: no step changes it (R31). Log entry 2. -/
  modesPred : Fin 256
  /-- `rst` was 1 at the last edge (R200). -/
  inReset   : Bool
  /-- R22. -/
  phase     : Phase
  /-- The command whose buffers belong to the executor because its response has not been delivered (R205). -/
  loan      : Option ExecCmd
  /-- The response packets delivered, oldest first (R208). -/
  responses : List Response
  /-- The executor commands issued, oldest first (R208). -/
  issued    : List Issued
  /-- The trace records emitted, oldest first (R208). -/
  traced    : List TraceRec
  /-- The other agents' side. -/
  around    : Around
  /-- The model's own: how many `draw32` values have been used (R15). Log entry 3. -/
  draws     : Nat
  /-- The model's own: the clock edges to come, that is what the other agents do next. Log entry 1. -/
  inbox     : List Edge
  deriving DecidableEq, Repr

/-- Reasons to stop with a fault. There is none: "No behaviour of the QDB is treated as `fault`" (93_implementation_defined.md
section 1); every error is a status in a response (R170). -/
inductive Fault where
  deriving DecidableEq, Repr

/-- Reasons for having no meaning. -/
inductive Refusal where
  /-- Raised by an arm of `exec` whose instruction has no meaning yet; no arm does. Safe: nothing can be proved of it. -/
  | notModelled (mnemonic : String)
  deriving DecidableEq, Repr

/-- The surroundings before a run: an executor that holds nothing (R203), and storage nothing has been written to (log
entry 12). -/
def Around.empty : Around :=
  { executor := [], completed := [], dropped := [], pending := [], mem := [], raced := [], hostReads := [], freeReads := 0,
    sink := [] }

/-- The machine right after reset (R32): phase `IDLE`, nothing received, nothing to respond, nothing in flight, no
commands and no traces; no run has begun, so nothing has been observed and no edge is scheduled. `M` is that of the
reference configuration (R7; log entry 2). -/
def State.reset : State :=
  { modesPred := Config.referenceModesPred
    inReset   := false
    phase     := .idle
    loan      := none
    responses := []
    issued    := []
    traced    := []
    around    := Around.empty
    draws     := 0
    inbox     := [] }

end Sys2Proof.Machine
end

