-- ==== Sys2Proof/Machine/Flags.lean ====
section
/-! DEFINITION. Flags. The QDB has no flags or condition codes (R20) and no op writes any; the only flags there are
travel in a dispatch: the header's `relu`, `rep` and `bias_en` (R61), passed on in word X16 of the command (R69). -/

namespace Sys2Proof.Machine

/-- X16 (R69, R137, R138): bit 0 activation, bit 1 repeatingBias, bit 2 bias_en, bits [31:3] zero. -/
def flagsWord (activation repeatingBias biasEn : Bool) : Word :=
  BitVec.ofNat 32 (activation.toNat + 2 * repeatingBias.toNat + 4 * biasEn.toNat)

end Sys2Proof.Machine
end

