-- ==== Sys2Proof/Machine/Operands.lean ====
section
/-! DEFINITION. How operands are read and results written back (R10 to R14), bit by bit as the notation of the spec
gives it: `int` and `bits32`, the counting primitives, the binary32 fields, and the values of binary32 patterns (used
to state the domain and the exactness of results, never by the datapath, R14). -/

namespace Sys2Proof.Machine

/-- `int(v)` (R11): a word read as `i32`. -/
abbrev intOf (w : Word) : Int := w.toInt

/-- `bits32(x)` (R11): an `i32` value written back as a word. -/
def bits32 (x : Int) : Word := BitVec.ofInt 32 x

/-- `a mod m` for positive `m` (R12): the floored modulo, never negative. -/
def flooredMod (a : Int) (m : Nat) : Int := a % (m : Int)

/-- The zero bits from bit `k − 1` of `w` downwards to its highest set bit below bit `k`. -/
def leadingZerosBelow (w : Word) : Nat → Nat
  | 0 => 0
  | k + 1 => if w.getLsbD k then 0 else leadingZerosBelow w k + 1

/-- `clz32` (R13); 32 for 0. -/
def clz32 (w : Word) : Nat := leadingZerosBelow w 32

/-- The zero bits of `w` from bit `k` upwards to its lowest set bit, looking at `n` bits. -/
def trailingZerosFrom (w : Word) (k : Nat) : Nat → Nat
  | 0 => 0
  | n + 1 => if w.getLsbD k then 0 else trailingZerosFrom w (k + 1) n + 1

/-- `ctz32` (R13); 32 for 0. -/
def ctz32 (w : Word) : Nat := trailingZerosFrom w 0 32

/-- The set bits of `w` below bit `k`. -/
def setBitsBelow (w : Word) : Nat → Nat
  | 0 => 0
  | k + 1 => setBitsBelow w k + (if w.getLsbD k then 1 else 0)

/-- `popcount32` (R13). -/
def popcount32 (w : Word) : Nat := setBitsBelow w 32

/-- Sign `S = b[31]` (R14). -/
def signOf (b : Word) : Bool := b.getLsbD 31

/-- Biased exponent `E = b[30:23]` (R14). -/
def exponentOf (b : Word) : BitVec 8 := b.extractLsb' 23 8

/-- Fraction `F = b[22:0]` (R14). -/
def fractionOf (b : Word) : BitVec 23 := b.extractLsb' 0 23

/-- The value of a binary32 pattern (R14). -/
inductive FloatValue where
  | finite (q : Rat)
  | infinity (negative : Bool)
  | nan
  deriving DecidableEq, Repr

/-- `2^k` for an integer `k`, exactly. -/
def twoPow (k : Int) : Rat := if 0 ≤ k then (2 ^ k.toNat : Nat) else 1 / ((2 ^ (-k).toNat : Nat) : Rat)

/-- `f32val(b)` (R14): the IEEE-754 reading. -/
def f32val (b : Word) : FloatValue :=
  let sign : Rat := if signOf b then -1 else 1
  if exponentOf b = 255 then
    if fractionOf b = 0 then .infinity (signOf b) else .nan
  else if exponentOf b = 0 then
    .finite (sign * ((fractionOf b).toNat : Rat) * twoPow (-149))
  else
    .finite (sign * ((2 ^ 23 + (fractionOf b).toNat : Nat) : Rat) * twoPow ((exponentOf b).toNat - 150))

end Sys2Proof.Machine
end

