-- ==== Sys2Proof/Machine/Ops.lean ====
section
/-! DEFINITION. The named operations every meaning is written over: the pseudocode primitives of R15 (`respond`, `raise`,
`Issue`, `Trace`, `draw32`), the end of a dispatch (R23), the delivery of a response (R26), and the layout of the records
that leave the QDB (R68 to R72). Reporting an error is ONE operation, `raiseStatus`: there are no traps, nothing is saved
and nothing is restored (R170), and taking the response is all the return there is (R177). -/

namespace Sys2Proof.Machine

/-- The outcome of a step or of a meaning. -/
abbrev Result := Host.Outcome State Fault Refusal

/-- The build parameter `M` (R7), between 1 and 256. -/
def numModes (s : State) : Nat := s.modesPred.val + 1

/-! ### Layout of what leaves the QDB -/

/-- The code of a status (R171). -/
def statusCode : Status → BitVec 8
  | .ok => 0x00
  | .invalidArgument => 0x01
  | .executorFailure => 0x02
  | .illegalOperation => 0x03

/-- R0 (R68): status in [7:0], op in [11:8], 0 above. -/
def responseR0 (r : Response) : Word := (r.op.setWidth 32 <<< 8) ||| (statusCode r.status).setWidth 32

/-- Word `k` of a response packet (R68). -/
def responseWord (r : Response) (k : Fin 3) : Word :=
  match k with
  | 0 => responseR0 r
  | 1 => r.r1
  | 2 => r.r2

/-- X0 to X18 (R69). -/
def commandWords (c : ExecCmd) : List Word :=
  [c.internalMode, c.dimI, c.dimJ, c.dimK,
    addrLo c.lhs, addrHi c.lhs, addrLo c.rhs, addrHi c.rhs, addrLo c.out, addrHi c.out, addrLo c.bias, addrHi c.bias,
    c.strides.lhs, c.strides.rhs, c.strides.out, c.strides.bias,
    flagsWord c.activation c.repeatingBias c.biasEn, c.shift, c.relu6Shift]

/-- The number whose bits `[32k+31:32k]` are word `k` of a list. -/
def packWords : List Word → Nat
  | [] => 0
  | w :: ws => w.toNat + 2 ^ 32 * packWords ws

/-- `cmd_data` (R70): X0 in bits [31:0], X`k` in bits `[32k+31:32k]`. -/
def commandData (c : ExecCmd) : BitVec 608 := BitVec.ofNat 608 (packWords (commandWords c))

/-- T0 to T3 (R72). -/
def traceWords : TraceRec → List Word
  | .backend mode internalMode op => [1, mode, internalMode, op.setWidth 32]
  | .dims i j k => [2, i, j, k]

/-- `trc_data` (R24): T0 in bits [31:0]. -/
def traceData (t : TraceRec) : BitVec 128 := BitVec.ofNat 128 (packWords (traceWords t))

/-- `cmd_sel = 1 << internalMode` (R136). -/
def oneHot (internalMode : Nat) : BitVec 256 := BitVec.ofNat 256 (2 ^ internalMode)

/-- The 4-bit op code of a dispatch (R22, R62). -/
def dispatchOpCode : DispatchOp → BitVec 4
  | .dispc => opCodeBits .dispc
  | .disps => opCodeBits .disps

/-! ### The primitives of R15 -/

/-- `respond(status, r1, r2)` (R15): the transaction of op code `op` ends with this response. -/
def respond (op : BitVec 4) (status : Status) (r1 r2 : Word) (s : State) : State :=
  { s with phase := .resp ⟨status, op, r1, r2⟩ 0 false }

/-- `raise <Status>(r1)` (R15): the one way an error is reported. -/
def raiseStatus (op : BitVec 4) (status : Status) (r1 : Word) (s : State) : State := respond op status r1 0 s

/-- `Trace(rec)` (R15): emits a record; it never waits. -/
def emitTrace (t : TraceRec) (s : State) : State := { s with traced := s.traced ++ [t] }

/-- `Issue(cmd)` (R15): the command is on its way to the executor port with its select, its buffers belong to the
executor (R205; all four addresses, the bias address too when `bias_en = 0`, log entry 11), and the phase waits (R22). The ports first show the two trace records (R29). -/
def issue (f : Flight) (s : State) : State :=
  { s with
    issued := s.issued ++ [f.issued]
    loan := some f.issued.cmd
    phase := .waitExec f (.due .backend false) }

/-- `draw32()` (R15): a fresh free value. -/
def drawnWord (s : State) : Word := Config.draw32 s.draws

/-- The state after one `draw32()`. -/
def afterDraw (s : State) : State := { s with draws := s.draws + 1 }

/-! ### Records of a dispatch -/

/-- The `T_BACKEND` record of a dispatch (R72, R139). -/
def backendRecord (f : Flight) : TraceRec := .backend f.mode f.issued.cmd.internalMode (dispatchOpCode f.op)

/-- The `T_DIMS` record of a dispatch (R72, R139). -/
def dimsRecord (f : Flight) : TraceRec := .dims f.issued.cmd.dimI f.issued.cmd.dimJ f.issued.cmd.dimK

/-- The executor's completion of a dispatch (R23, R173): OK, or EXECUTOR_FAILURE with the error word unchanged. -/
def completeDispatch (f : Flight) (ok : Bool) (err : Word) (s : State) : State :=
  if ok then respond (dispatchOpCode f.op) .ok 0 0 s
  else raiseStatus (dispatchOpCode f.op) .executorFailure err s

/-- The host has taken the whole response (R26, R177): it is delivered, the buffers are the host's again (R205), and the
QDB is in `IDLE`. -/
def deliver (r : Response) (s : State) : State :=
  { s with responses := s.responses ++ [r], loan := none, phase := .idle }

/-- The response a meaning has left to be taken, if the transaction has ended. -/
def pendingResponse (s : State) : Option Response :=
  match s.phase with
  | .resp r _ _ => some r
  | _ => none

end Sys2Proof.Machine
end

