-- ==== Sys2Proof/Machine/Buffers.lean ====
section
/-! DEFINITION. The buffers host and executor share (R51, R205), which the QDB never reaches (R40): storage, whose the
buffers are, what each of the two does to them, the race a broken duty makes, and the executor's side of a command (R8,
`EXEC` of R7). Everything here acts on `Around` alone. -/

namespace Sys2Proof.Machine

/-! ### Storage: a list of address and byte, addresses strictly rising -/

/-- The canonical form: addresses strictly rising and of 64 bits. An unlisted address has no value, so no entry equals
what an unlisted address reads as. -/
abbrev Memory.wf (m : List Host.Cell) : Prop :=
  m.Pairwise (fun x y => x.1 < y.1) ∧ ∀ x ∈ m, x.1 < 2 ^ 64

/-- The byte written to an address, if one was. -/
def memRead (m : List Host.Cell) (a : Nat) : Option Byte :=
  match m with
  | [] => none
  | (x, b) :: rest => if x = a then some b else memRead rest a

/-- Writes a byte. -/
def memWrite (m : List Host.Cell) (a : Nat) (b : Byte) : List Host.Cell :=
  match m with
  | [] => [(a, b)]
  | (x, c) :: rest =>
    if a < x then (a, b) :: (x, c) :: rest
    else if x = a then (a, b) :: rest
    else (x, c) :: memWrite rest a b

/-- Forgets the byte at an address. -/
def memErase (m : List Host.Cell) (a : Nat) : List Host.Cell := m.filter (fun x => x.1 ≠ a)

/-! ### Whose the buffers are -/

/-- Whether an address is in a buffer of a command: the executor's to say (R42, log entry 19). -/
def inBuffer (k : Buffer) (c : ExecCmd) (a : Addr) : Bool := Config.inBuffer k (commandWords c) a

/-- Whether the outputs of two commands overlap (R51). -/
def outsOverlap (c d : ExecCmd) : Bool := decide (∃ a : Addr, inBuffer .out c a = true ∧ inBuffer .out d a = true)

/-- The commands whose buffers are the executor's: the dispatch whose response is not delivered (R205), and those it took
and has neither completed nor given up, which a reset of the QDB does not recall (R201, log entry 11). -/
def lentBy (loan : Option ExecCmd) (held : List Taken) : List ExecCmd := loan.toList ++ held.map Taken.cmd

/-- The address an access is to. -/
def accessAddr : HostAccess → Addr
  | .read a => a
  | .write a _ => a
  | .free a => a

/-- Whether an access to a buffer on loan breaks a duty of R51 and R205: only reading `lhs`, `rhs` and `bias` does not. -/
def forbids (acc : HostAccess) (k : Buffer) : Bool :=
  match acc with
  | .read _ => k == .out
  | .write _ _ => true
  | .free _ => true

/-- The buffers on loan whose duty an access breaks. -/
def brokenBy (lent : List ExecCmd) (acc : HostAccess) : List Region :=
  lent.flatMap (fun c =>
    ([.lhs, .rhs, .out, .bias].filter (fun k => forbids acc k && inBuffer k c (accessAddr acc))).map (fun k => ⟨k, c⟩))

/-- The outputs a newly taken command makes overlap with those of commands already held (R51, R205). -/
def clashesWith (held : List Taken) (c : ExecCmd) : List Region :=
  held.flatMap (fun h => if outsOverlap h.cmd c then [⟨.out, h.cmd⟩, ⟨.out, c⟩] else [])

/-! ### The host's accesses (R51) -/

/-- Whether an address is in a buffer whose contents a race has left open. -/
def inRace (r : Around) (a : Addr) : Bool := r.raced.any (fun x => inBuffer x.which x.cmd a)

/-- The byte the host sees at an address, where the spec gives one: not after a race (R51), and not where nothing was
written. -/
def definedByte (r : Around) (a : Addr) : Option Byte := if inRace r a then none else memRead r.mem a.toNat

/-- An access, duties apart: a read of a byte the spec does not give reads a fresh free value; freed storage loses its
contents. -/
def plainAccess (acc : HostAccess) (r : Around) : Around :=
  match acc with
  | .read a =>
    match definedByte r a with
    | some b => { r with hostReads := r.hostReads ++ [(a.toNat, b)] }
    | none =>
      { r with hostReads := r.hostReads ++ [(a.toNat, Config.freeByte r.freeReads)], freeReads := r.freeReads + 1 }
  | .write a b => { r with mem := memWrite r.mem a.toNat b }
  | .free a => { r with mem := memErase r.mem a.toNat }

/-- An access of the host while the buffers of the commands `lent` are on loan: where it breaks a duty it is a race on the
buffer, with every value admitted from then on (R51, U5, log entry 20). -/
def hostAccess (lent : List ExecCmd) (r : Around) (acc : HostAccess) : Around :=
  plainAccess acc { r with raced := r.raced ++ brokenBy lent acc }

/-- The host's accesses at an edge. -/
def hostSide (e : Edge) (loan : Option ExecCmd) (r : Around) : Around :=
  e.hostAccesses.foldl (hostAccess (lentBy loan r.executor)) r

/-! ### The executor (R8) -/

/-- The executor takes a command. If it already holds one whose output overlaps, the two dispatches are concurrent and
their outputs race (R51, R205, log entry 22). -/
def takeCommand (c : ExecCmd) (r : Around) : Around :=
  { r with executor := r.executor ++ [⟨c, []⟩], raced := r.raced ++ clashesWith r.executor c }

/-- The executor writes a byte for a command it holds; without one it does nothing. What it writes is `EXEC`'s (R7). The
host does not see it yet (R47). -/
def executorWrite (r : Around) (w : ExecWrite) : Around :=
  if w.slot < r.executor.length then
    { r with
      executor := r.executor.modify w.slot (fun h => { h with wrote := h.wrote ++ [(w.addr.toNat, w.byte)] })
      pending := r.pending ++ [(w.addr.toNat, w.byte)] }
  else r

/-- The executor's writes at an edge. -/
def writeSide (e : Edge) (r : Around) : Around := e.execWrites.foldl executorWrite r

/-- The entries of a list whose position, counted from `n`, is or is not (`want`) among `ks`. -/
def atPositions (ks : List Nat) (want : Bool) (n : Nat) : List Host.Cell → List Host.Cell
  | [] => []
  | x :: rest => if ks.contains n = want then x :: atPositions ks want (n + 1) rest else atPositions ks want (n + 1) rest

/-- Some of the executor's writes become visible to the host, in the order in which they were written (R47, U14, log
entry 21). -/
def visibleSide (e : Edge) (r : Around) : Around :=
  { r with
    mem := (atPositions e.visible true 0 r.pending).foldl (fun m x => memWrite m x.1 x.2) r.mem
    pending := atPositions e.visible false 0 r.pending }

/-- The executor reports a completion: `done_ready` is 1 in every phase (R28), so it is always taken. Its oldest command
is complete (log entry 10). -/
def completionSide (e : Edge) (r : Around) : Around :=
  if e.doneValid then
    match r.executor with
    | [] => r
    | h :: rest => { r with executor := rest, completed := r.completed ++ [⟨h.cmd, h.wrote, e.doneOk, e.doneErr⟩] }
  else r

/-- The executor is reset (R203): it gives up every command it holds, completes none of them and writes no more for them,
and their buffers are no longer its own. What it has written stays written (log entry 23). -/
def resetSide (e : Edge) (r : Around) : Around :=
  if e.execRst then { r with executor := [], dropped := r.dropped ++ r.executor } else r

end Sys2Proof.Machine
end

