-- ==== Sys2Proof/Machine/Dispatcher.lean ====
section
/-! DEFINITION. The MD unit (41_dispatcher.md): its datapath functions, the two commands, the dispatch sequence that DISPC
and DISPS share, and its five ops. -/

namespace Sys2Proof.Machine

/-- POW2 (R130): positive as `i32`, and `d & (d − 1) = 0` on the words. -/
def isPow2 (d : Word) : Bool := decide (0 < intOf d) && (d &&& (d - 1)) == 0

/-- DERIVE_SHIFT (R131): `INT_W − clz32(d) − 1`; applied only where `isPow2` holds (R139). -/
def deriveShift (d : Word) : Nat := Config.intW - clz32 d - 1

/-- ROT (R132): `((m − 1) mod M + M) mod M` on exact integers. -/
def rot (modes : Nat) (m : Int) : Int := flooredMod (flooredMod (m - 1) modes + modes) modes

/-- UNROT (R134): `(i + 1) mod M` on exact integers. -/
def unrot (modes : Nat) (i : Int) : Int := flooredMod (i + 1) modes

/-- A mode as a result word. -/
def modeWord (m : Int) : Word := bits32 m

/-- The packed strides of DISPC (R137): the row widths of lhs, rhs, out and bias. -/
def packedStrides (a : DispatchArgs) : Strides := ⟨a.dimK, a.dimJ, a.dimJ, a.dimJ⟩

/-- The command of a dispatch (R137, R138) with its select (R136). -/
def buildIssued (modes : Nat) (relu rep biasEn : Bool) (a : DispatchArgs) (st : Strides) : Issued :=
  { cmd :=
      { internalMode := modeWord (rot modes (intOf a.mode))
        dimI := a.dimI, dimJ := a.dimJ, dimK := a.dimK
        lhs := a.lhs, rhs := a.rhs, out := a.out, bias := a.bias
        strides := st
        activation := relu, repeatingBias := rep, biasEn := biasEn
        shift := BitVec.ofNat 32 (deriveShift a.divisor)
        relu6Shift := 0 }
    sel := oneHot (rot modes (intOf a.mode)).toNat }

/-- DISPATCH (R139): validate; then derive, normalize and build; then two traces and the command; the phase waits for the
executor. An invalid divisor ends the transaction with no trace and no command (R172). -/
def dispatch (op : DispatchOp) (relu rep biasEn : Bool) (a : DispatchArgs) (st : Strides) (s : State) : Result :=
  if isPow2 a.divisor then
    let f : Flight := ⟨op, a.mode, buildIssued (numModes s) relu rep biasEn a st⟩
    .next (issue f (emitTrace (dimsRecord f) (emitTrace (backendRecord f) s)))
  else
    .next (raiseStatus (dispatchOpCode op) .invalidArgument 0 s)

/-- DSHIFT (R140). -/
def execDshift (d : Word) (s : State) : Result :=
  if isPow2 d then .next (respond (opCodeBits .dshift) .ok (BitVec.ofNat 32 (deriveShift d)) 0 s)
  else .next (raiseStatus (opCodeBits .dshift) .invalidArgument 0 s)

/-- MROT (R141). -/
def execMrot (m : Word) (s : State) : Result :=
  .next (respond (opCodeBits .mrot) .ok (modeWord (rot (numModes s) (intOf m))) 0 s)

/-- MUNROT (R142). -/
def execMunrot (i : Word) (s : State) : Result :=
  .next (respond (opCodeBits .munrot) .ok (modeWord (unrot (numModes s) (intOf i))) 0 s)

/-- DISPC (R143): the dispatch with packed strides and no repeating bias. -/
def execDispc (relu biasEn : Bool) (a : DispatchArgs) (s : State) : Result :=
  dispatch .dispc relu false biasEn a (packedStrides a) s

/-- DISPS (R144): the dispatch with the request's strides and repeating-bias flag. -/
def execDisps (relu rep biasEn : Bool) (a : DispatchArgs) (st : Strides) (s : State) : Result :=
  dispatch .disps relu rep biasEn a st s

end Sys2Proof.Machine
end

