-- ==== Sys2Proof/Machine/Quantizer.lean ====
section
/-! DEFINITION. The QE unit (40_quantizer.md): its four datapath functions and its four ops. Integer logic only. -/

namespace Sys2Proof.Machine

/-- EXP_EXTRACT (R100): the biased exponent field. -/
def expExtract (b : Word) : BitVec 8 := exponentOf b

/-- MANT_NORM (R101): `0x3F000000 | zext_32(b[22:0])`; the sign is cleared. -/
def mantNorm (b : Word) : Word := 0x3F000000 ||| (fractionOf b).setWidth 32

/-- SHIFT_CALC (R102): `126 − e`, exactly. -/
def shiftCalc (e : BitVec 8) : Int := 126 - (e.toNat : Int)

/-- MULT_SCALE (R103): `(0x00800000 | n[22:0]) << 7`, exactly. -/
def multScale (n : Word) : Int := (((0x00800000 : Word) ||| (fractionOf n).setWidth 32).toNat : Int) * 2 ^ 7

/-- `DOM(b)` (R104): a finite scale greater than zero. -/
def inDomain (b : Word) : Bool :=
  !signOf b && exponentOf b != 255 && !(exponentOf b == 0 && fractionOf b == 0)

/-- QUANT (R107). Out of domain both results are free values and the status is still OK (R178). -/
def execQuant (b : Word) (s : State) : Result :=
  if inDomain b then
    .next (respond (opCodeBits .quant) .ok (bits32 (multScale (mantNorm b))) (bits32 (shiftCalc (expExtract b))) s)
  else
    .next (respond (opCodeBits .quant) .ok (drawnWord s) (drawnWord (afterDraw s)) (afterDraw (afterDraw s)))

/-- QEXP (R108). -/
def execQexp (b : Word) (s : State) : Result :=
  .next (respond (opCodeBits .qexp) .ok ((expExtract b).setWidth 32) 0 s)

/-- QNORM (R109). -/
def execQnorm (b : Word) (s : State) : Result :=
  .next (respond (opCodeBits .qnorm) .ok (mantNorm b) 0 s)

/-- QSHIFT (R110). -/
def execQshift (e : BitVec 8) (s : State) : Result :=
  .next (respond (opCodeBits .qshift) .ok (bits32 (shiftCalc e)) 0 s)

end Sys2Proof.Machine
end

