-- ==== Sys2Proof/Machine/Dispatch.lean ====
section
/-! DEFINITION. The meaning of every op (R62): one arm per constructor of Instr. -/

namespace Sys2Proof.Machine

def exec (i : Instr) (s : State) : Host.Outcome State Fault Refusal :=
  match i with
  | .quant b => Sys2Proof.Machine.execQuant b s
  | .qexp b => Sys2Proof.Machine.execQexp b s
  | .qnorm b => Sys2Proof.Machine.execQnorm b s
  | .qshift e => Sys2Proof.Machine.execQshift e s
  | .dshift d => Sys2Proof.Machine.execDshift d s
  | .mrot m => Sys2Proof.Machine.execMrot m s
  | .munrot m => Sys2Proof.Machine.execMunrot m s
  | .dispc relu biasEn args => Sys2Proof.Machine.execDispc relu biasEn args s
  | .disps relu rep biasEn args strides => Sys2Proof.Machine.execDisps relu rep biasEn args strides s

end Sys2Proof.Machine
end

