-- ==== Sys2Proof/Machine/Ports.lean ====
section
/-! DEFINITION. The ports (R24): what the QDB drives in a state, and the transfers that happen at a rising edge at which
valid and ready are both 1. The order of the handlers within one edge is the data's, not time's: each looks at a port of
its own. -/

namespace Sys2Proof.Machine

/-- The output ports (R24). A data port whose valid is 0 has no value the spec gives (R32): it is `none`, and `some`
stands for valid = 1. -/
structure Ports where
  reqReady  : Bool
  /-- `rsp_data` and `rsp_last`. -/
  rsp       : Option (Word × Bool)
  cmd       : Option (BitVec 608)
  /-- `cmd_sel`: all zero in `IDLE` and `RECV` (R32, R200), the select while a command is presented (R27), otherwise not
  given by the spec. -/
  cmdSel    : Option (BitVec 256)
  doneReady : Bool
  trc       : Option (BitVec 128)
  deriving DecidableEq, Repr

/-- The request port is open exactly in `IDLE` and `RECV` (R25). -/
def requestOpen : Phase → Bool
  | .idle => true
  | .recv _ => true
  | _ => false

/-- The trace record on the trace port (R29). -/
def traceOnPort : Phase → Option TraceRec
  | .waitExec f (.due .backend true) => some (backendRecord f)
  | .waitExec f (.due .dims true) => some (dimsRecord f)
  | _ => none

/-- The command on the command port (R27): the signal-level `WAIT_CMD`. -/
def commandOnPort : Phase → Option Issued
  | .waitExec f (.due .command true) => some f.issued
  | _ => none

/-- The response word on the response port with its `rsp_last` (R26). -/
def responseOnPort : Phase → Option (Word × Bool)
  | .resp r k true => some (responseWord r k, k == 2)
  | _ => none

/-- `cmd_sel`, where the spec gives it. -/
def selectOnPort : Phase → Option (BitVec 256)
  | .idle => some 0
  | .recv _ => some 0
  | p => (commandOnPort p).map Issued.sel

/-- The outputs while `rst` is 1 (R200): every valid and `req_ready` 0, `done_ready` 1. -/
def resetPorts : Ports :=
  { reqReady := false, rsp := none, cmd := none, cmdSel := none, doneReady := true, trc := none }

/-- The outputs of a state, given the `rst` input (R24 to R29, R200). -/
def ports (rst : Bool) (s : State) : Ports :=
  if rst || s.inReset then resetPorts
  else
    { reqReady := requestOpen s.phase
      rsp := responseOnPort s.phase
      cmd := (commandOnPort s.phase).map (fun c => commandData c.cmd)
      cmdSel := selectOnPort s.phase
      doneReady := true
      trc := (traceOnPort s.phase).map traceData }

/-! ### The other agents' side of an edge -/

/-- The trace sink takes the record on the trace port, if it is attached and looks (R29). -/
def sinkSide (e : Edge) (p : Phase) (r : Around) : Around :=
  match traceOnPort p with
  | some t => if e.sinkTakes then { r with sink := r.sink ++ [t] } else r
  | none => r

/-- The executor takes the command on the command port when `cmd_ready = 1` (R27). -/
def commandSide (e : Edge) (p : Phase) (r : Around) : Around :=
  match commandOnPort p with
  | some c => if e.cmdReady then takeCommand c.cmd r else r
  | none => r

/-- What sink and executor take from the QDB's ports; in reset the ports present nothing (R200). -/
def portSide (e : Edge) (s : State) (r : Around) : Around :=
  if e.rst || s.inReset then r else commandSide e s.phase (sinkSide e s.phase r)

/-- The other agents after an edge (R8), reset or not: the host has accessed storage, sink and executor have looked at
their ports, the executor has written, writes have become visible, a completion has been reported, and the executor has
been reset if it is, in this order (log entry 22). Duties are those of the state before the edge. -/
def aroundAfter (e : Edge) (s : State) : Around :=
  resetSide e (completionSide e (visibleSide e (writeSide e (portSide e s (hostSide e s.loan s.around)))))

/-! ### The QDB's side of an edge -/

/-- A whole request packet has arrived (R23, R67): its op runs, or the response is ILLEGAL_OPERATION with the received
op field (R174). -/
def acceptPacket (p : List Word) (s : State) : Result :=
  match decode p with
  | .ok i => exec i s
  | .error _ => .next (raiseStatus (echoedOp p) .illegalOperation 0 s)

/-- A request word is taken after the words `before` of the same packet (R25). -/
def takeRequestWord (e : Edge) (before : List Word) (s : State) : Result :=
  if e.reqLast then acceptPacket (before ++ [e.reqData]) s
  else .next { s with phase := .recv (before ++ [e.reqData]) }

/-- How the ports move at an edge while a dispatch is in flight: a trace record stays one cycle (R29), the command until
it is taken (R27). -/
def stageAfterEdge (e : Edge) : Stage → Stage
  | .due .backend true => .due .dims false
  | .due .dims true => .due .command false
  | .due .command true => if e.cmdReady then .taken else .due .command true
  | st => st

/-- The wait for the executor at an edge (R23): a completion ends it, whatever the ports have shown (R28, log entry 6). -/
def waitEdge (e : Edge) (f : Flight) (st : Stage) (s : State) : State :=
  if e.doneValid then completeDispatch f e.doneOk e.doneErr s
  else { s with phase := .waitExec f (stageAfterEdge e st) }

/-- The host takes word `k` of the response: the next word follows, or the response is delivered (R26). -/
def takeResponseWord (r : Response) (k : Fin 3) (s : State) : State :=
  if k = 2 then deliver r s else { s with phase := .resp r (k + 1) false }

/-- The transfers of the QDB's phase at an edge with `rst = 0` (R23). A word or completion the phase does not take
changes nothing here. -/
def phaseEdge (e : Edge) (s : State) : Result :=
  match s.phase with
  | .idle => if e.reqValid then takeRequestWord e [] s else .next s
  | .recv ws => if e.reqValid then takeRequestWord e ws s else .next s
  | .waitExec f st => .next (waitEdge e f st s)
  | .resp r k shown => .next (if shown && e.rspReady then takeResponseWord r k s else s)

/-- What the QDB shows next on a port, once its own unspecified latency is over (R30). -/
def showNext : Phase → Phase
  | .waitExec f (.due item _) => .waitExec f (.due item true)
  | .resp r k _ => .resp r k true
  | p => p

/-- The QDB moves on after an edge, or not: its latency is free (R30, R207). -/
def moveOn (e : Edge) (r : Result) : Result :=
  match r with
  | .next s => .next (if e.advance then { s with phase := showNext s.phase } else s)
  | .fault x => .fault x
  | .refused x => .refused x

/-! ### Reset (R200, R201) -/

/-- An edge with `rst = 1`, or the first edge with `rst = 0`, which leaves the QDB in the state of R32 (R200, log entry
5): the transaction in progress is abandoned with no response and its buffers are the host's again; a command the
executor has taken is not recalled, and keeps its buffers (R201, log entry 11) unless the executor is reset too (R203). -/
def abandon (inReset : Bool) (s : State) : State := { s with inReset := inReset, phase := .idle, loan := none }

/-- One rising edge of `clk` (R24). -/
def clockEdge (e : Edge) (s : State) : Result :=
  let s' := { s with around := aroundAfter e s }
  if e.rst then .next (abandon true s')
  else if s.inReset then .next (abandon false s')
  else moveOn e (phaseEdge e s')

/-- An edge at which no other agent does anything; the QDB moves on by itself. -/
def quietEdge : Edge :=
  { rst := false, reqValid := false, reqData := 0, reqLast := false, rspReady := false, cmdReady := false,
    doneValid := false, doneOk := false, doneErr := 0, hostAccesses := [], execRst := false,
    execWrites := [], visible := [], sinkTakes := false, advance := true }

/-- One step: the next scheduled edge, or a quiet one where none is scheduled. -/
def clockStep (s : State) : Result :=
  match s.inbox with
  | [] => clockEdge quietEdge s
  | e :: rest => clockEdge e { s with inbox := rest }

/-! ### Putting an instruction where the next step runs it -/

/-- The edge at which the host presents the last word of a packet and nothing else happens. -/
def lastWordEdge (w : Word) : Edge :=
  { rst := false, reqValid := true, reqData := w, reqLast := true, rspReady := false, cmdReady := false,
    doneValid := false, doneOk := false, doneErr := 0, hostAccesses := [], execRst := false,
    execWrites := [], visible := [], sinkTakes := false, advance := false }

/-- The phase in which all words of a packet but its last have been received. -/
def phaseBeforeLast (p : List Word) : Phase :=
  match p with
  | [] => .idle
  | [_] => .idle
  | p => .recv p.dropLast

/-- `s` with the packet `p` received but for its last word, which the next edge presents (log entry 4). -/
def withPacket (s : State) (p : List Word) : State :=
  { s with inReset := false, phase := phaseBeforeLast p, loan := none, inbox := lastWordEdge (p.getLastD 0) :: s.inbox }

end Sys2Proof.Machine
end

