-- ==== Sys2Proof/Machine/Step.lean ====
section
/-! DEFINITION. One step of the machine, and the host's way of giving it an instruction. -/

namespace Sys2Proof.Machine

/-- One rising edge of `clk` (R23, R24). -/
def step (s : State) : Host.Outcome State Fault Refusal := clockStep s

/-- `s` with the instruction of a table word where the next step fetches it: its words received but for the last, which
the next edge presents (R25). It stands for the host's presenting the packet (log entry 4). -/
def State.withFetchWord (s : State) (nbits w : Nat) : State := withPacket s (tablePacket nbits w)

end Sys2Proof.Machine
end

