-- ==== Sys2Proof/Machine/Transaction.lean ====
section
/-! DEFINITION. The normative level of the spec (R9): the transaction machine of R22 and R23, in which a whole packet is
one event, with what each op does said at once from its rule; and the view of the clocked machine at that level. The
clocked machine (Ports.lean) is what `step` runs; that it refines this one is an obligation. -/

namespace Sys2Proof.Machine

/-- The three phases of R22. -/
inductive TPhase where
  | idle
  | waitExec (op : DispatchOp)
  | resp (r : Response)
  deriving DecidableEq, Repr

/-- The transaction machine: its phase, the build parameter, and the observable result so far (R208). -/
structure TState where
  modesPred : Fin 256
  phase     : TPhase
  responses : List Response
  issued    : List Issued
  traced    : List TraceRec
  draws     : Nat
  deriving DecidableEq, Repr

/-- The events of R23. -/
inductive TEvent where
  | present (p : List Word)
  | complete (ok : Bool) (err : Word)
  | take
  | reset
  deriving DecidableEq, Repr

/-- What a decoded request does (R23, rows 2 to 4). -/
inductive Verdict where
  | respond (r : Response)
  | forward (op : DispatchOp) (records : List TraceRec) (issued : Issued)
  deriving DecidableEq, Repr

/-- The verdict on a dispatch (R139). -/
def dispatchVerdict (modes : Nat) (op : DispatchOp) (relu rep biasEn : Bool) (a : DispatchArgs) (st : Strides) : Verdict :=
  if isPow2 a.divisor then
    let x := buildIssued modes relu rep biasEn a st
    .forward op [.backend a.mode x.cmd.internalMode (dispatchOpCode op), .dims a.dimI a.dimJ a.dimK] x
  else .respond ⟨.invalidArgument, dispatchOpCode op, 0, 0⟩

/-- The response table of R68, with the dispatches of R143 and R144. -/
def verdict (modes draws : Nat) : Instr → Verdict
  | .quant b =>
    if inDomain b then .respond ⟨.ok, 1, bits32 (multScale (mantNorm b)), bits32 (shiftCalc (expExtract b))⟩
    else .respond ⟨.ok, 1, Config.draw32 draws, Config.draw32 (draws + 1)⟩
  | .qexp b => .respond ⟨.ok, 2, (expExtract b).setWidth 32, 0⟩
  | .qnorm b => .respond ⟨.ok, 3, mantNorm b, 0⟩
  | .qshift e => .respond ⟨.ok, 4, bits32 (shiftCalc e), 0⟩
  | .dshift d =>
    if isPow2 d then .respond ⟨.ok, 5, BitVec.ofNat 32 (deriveShift d), 0⟩ else .respond ⟨.invalidArgument, 5, 0, 0⟩
  | .mrot m => .respond ⟨.ok, 6, bits32 (rot modes (intOf m)), 0⟩
  | .munrot i => .respond ⟨.ok, 7, bits32 (unrot modes (intOf i)), 0⟩
  | .dispc relu biasEn a => dispatchVerdict modes .dispc relu false biasEn a ⟨a.dimK, a.dimJ, a.dimJ, a.dimJ⟩
  | .disps relu rep biasEn a st => dispatchVerdict modes .disps relu rep biasEn a st

/-- How many free values an op uses: two for a QUANT out of domain (R107). -/
def drawsUsed : Instr → Nat
  | .quant b => if inDomain b then 0 else 2
  | _ => 0

/-- A packet presented in `IDLE` (R23, rows 1 to 4). -/
def presented (p : List Word) (s : TState) : TState :=
  match decode p with
  | .error _ => { s with phase := .resp ⟨.illegalOperation, opField (p.headD 0), 0, 0⟩ }
  | .ok i =>
    match verdict (s.modesPred.val + 1) s.draws i with
    | .respond r => { s with phase := .resp r, draws := s.draws + drawsUsed i }
    | .forward op records x =>
      { s with phase := .waitExec op, traced := s.traced ++ records, issued := s.issued ++ [x] }

/-- The transition table R23; an event the phase has no row for changes nothing. -/
def transactionStep (s : TState) : TEvent → TState
  | .present p =>
    match s.phase with
    | .idle => presented p s
    | _ => s
  | .complete ok err =>
    match s.phase with
    | .waitExec op =>
      if ok then { s with phase := .resp ⟨.ok, dispatchOpCode op, 0, 0⟩ }
      else { s with phase := .resp ⟨.executorFailure, dispatchOpCode op, err, 0⟩ }
    | _ => s
  | .take =>
    match s.phase with
    | .resp r => { s with phase := .idle, responses := s.responses ++ [r] }
    | _ => s
  | .reset => { s with phase := .idle }

/-- The transaction-level phase of a phase: `RECV` folds into `IDLE`, `WAIT_CMD` into `WAIT_EXEC` (R22). -/
def foldPhase : Phase → TPhase
  | .idle => .idle
  | .recv _ => .idle
  | .waitExec f _ => .waitExec f.op
  | .resp r _ _ => .resp r

/-- The transaction-level view of a state. -/
def foldState (s : State) : TState :=
  { modesPred := s.modesPred, phase := foldPhase s.phase, responses := s.responses, issued := s.issued,
    traced := s.traced, draws := s.draws }

/-- The completion event of an edge, if there is one. -/
def completionEvent (e : Edge) : List TEvent := if e.doneValid then [.complete e.doneOk e.doneErr] else []

/-- The events of R23 that happen at an edge, in order. -/
def edgeEvents (e : Edge) (s : State) : List TEvent :=
  if e.rst then [.reset]
  else if s.inReset then [.reset]
  else
    match s.phase with
    | .idle => completionEvent e ++ (if e.reqValid && e.reqLast then [.present [e.reqData]] else [])
    | .recv ws => completionEvent e ++ (if e.reqValid && e.reqLast then [.present (ws ++ [e.reqData])] else [])
    | .waitExec _ _ => completionEvent e
    | .resp _ k shown => completionEvent e ++ (if shown && e.rspReady && k == 2 then [.take] else [])

end Sys2Proof.Machine
end

