-- ==== Sys2Proof/Safety.lean ====
section
/-! DEFINITION. What claims are stated in terms of: the invariant of every state the QDB can be in, the duties of the
executor and the host (R28, R51, R205), the executor as a parameter (R7), and the end and the result of a run (R208). -/

namespace Sys2Proof.Safety

open Sys2Proof.Machine

/-- A response the QDB may give (R68, R171), with the ranges the op rules state. -/
def responseOk (modes : Nat) (r : Response) : Prop :=
  match r.status with
  | .ok =>
    1 ≤ r.op.toNat ∧ r.op.toNat ≤ 9 ∧ (r.op ≠ 1 → r.r2 = 0) ∧
    (r.op = 2 → r.r1.toNat ≤ 255) ∧
    (r.op = 3 → 0x3F000000 ≤ r.r1.toNat ∧ r.r1.toNat < 0x3F800000) ∧
    (r.op = 4 → -129 ≤ r.r1.toInt ∧ r.r1.toInt ≤ 126) ∧
    (r.op = 5 → r.r1.toNat ≤ 30) ∧
    (r.op = 6 ∨ r.op = 7 → r.r1.toNat < modes) ∧
    (r.op = 8 ∨ r.op = 9 → r.r1 = 0)
  | .invalidArgument => (r.op = 5 ∨ r.op = 8 ∨ r.op = 9) ∧ r.r1 = 0 ∧ r.r2 = 0
  | .executorFailure => (r.op = 8 ∨ r.op = 9) ∧ r.r2 = 0
  | .illegalOperation => r.r1 = 0 ∧ r.r2 = 0

/-- A command the QDB may issue (R69, R136): internal mode below `M`, shift at most 30, `relu6Shift` 0, and a select
with exactly the bit of the internal mode. -/
def issuedOk (modes : Nat) (x : Issued) : Prop :=
  x.cmd.internalMode.toNat < modes ∧ x.cmd.shift.toNat ≤ 30 ∧ x.cmd.relu6Shift = 0 ∧
  ∀ j, x.sel.getLsbD j = decide (j = x.cmd.internalMode.toNat)

/-- The traces and the commands of a run belong together (R185): each command has its two records, in order, and there
are no others. -/
def tracesMatch (traced : List TraceRec) (issued : List Issued) : Prop :=
  ∃ fs : List Flight, issued = fs.map Flight.issued ∧ traced = fs.flatMap (fun f => [backendRecord f, dimsRecord f])

/-- A dispatch was forwarded before this response: it completed, or its executor failed (R175). -/
def forwarded (r : Response) : Prop := (r.op = 8 ∨ r.op = 9) ∧ (r.status = .ok ∨ r.status = .executorFailure)

/-- What a phase may hold, with the command whose buffers are on loan in it (R205). -/
def phaseOk (modes : Nat) (phase : Phase) (loan : Option ExecCmd) : Prop :=
  match phase with
  | .idle => loan = none
  | .recv ws => ws ≠ [] ∧ loan = none
  | .waitExec f _ => issuedOk modes f.issued ∧ loan = some f.issued.cmd
  | .resp r _ _ => responseOk modes r ∧ (loan.isSome = true ↔ forwarded r)

/-- The invariant: every response delivered and every command issued is one the rules allow, the records belong to the
commands, the phase holds what it may, a QDB in reset is in `IDLE`, and storage has its canonical form. -/
structure Inv (s : State) : Prop where
  responsesOk : ∀ r ∈ s.responses, responseOk (numModes s) r
  commandsOk  : ∀ x ∈ s.issued, issuedOk (numModes s) x
  tracesOk    : tracesMatch s.traced s.issued
  phaseFits   : phaseOk (numModes s) s.phase s.loan
  resetIdle   : s.inReset = true → s.phase = .idle
  memoryOk    : Memory.wf s.around.mem
  pendingOk   : ∀ x ∈ s.around.pending, x.1 < 2 ^ 64

/-! ### The executor -/

/-- The executor completes a command only after taking it (R28): at this edge it holds one, taken before or now. -/
def executorKeepsDuty (e : Edge) (s : State) : Prop :=
  e.doneValid = true → (portSide e s s.around).executor ≠ []

/-- The executor writes only the output of the command it writes for (R40, R51). -/
def executorWritesOut (e : Edge) (s : State) : Prop :=
  ∀ w ∈ e.execWrites, ∀ h, (portSide e s s.around).executor[w.slot]? = some h → inBuffer .out h.cmd w.addr = true

/-- The executor is reset together with the QDB, and not otherwise (R203, item 2). -/
def resetTogether (e : Edge) : Prop := e.execRst = e.rst

/-- The executor and the QDB are in step: it holds exactly the command the QDB waits for, from taking it on, and none
otherwise. So no completion is stale (R202, R203). -/
def executorInStep (s : State) : Prop :=
  match s.phase with
  | .waitExec f .taken => s.around.executor.map Taken.cmd = [f.issued.cmd]
  | _ => s.around.executor = []

/-- `EXEC` (R7, U2): which writes and which completion `(ok, err)` a command may have. A claim takes it as an argument;
that a command never completes is not forbidden. -/
abbrev ExecRelation := ExecCmd → List Host.Cell → Bool → Word → Prop

/-- All the executor has completed is as `EXEC` says. -/
def followsExec (exec : ExecRelation) (s : State) : Prop :=
  ∀ x ∈ s.around.completed, exec x.cmd x.wrote x.ok x.err

/-! ### The buffers -/

/-- The commands whose buffers are the executor's (R205, R201). -/
def lent (s : State) : List ExecCmd := lentBy s.loan s.around.executor

/-- The host keeps its duties with an access (R51): no buffer on loan has the address, unless the access is a read of an
input. -/
def hostMay (s : State) (acc : HostAccess) : Prop :=
  ∀ c ∈ lent s, ∀ k, forbids acc k = true → inBuffer k c (accessAddr acc) = false

/-- The host may write at an address. -/
def hostMayWrite (s : State) (a : Addr) : Prop := ∀ b, hostMay s (.write a b)

/-- The host may read at an address. -/
def hostMayRead (s : State) (a : Addr) : Prop := hostMay s (.read a)

/-- The host may free the storage at an address. -/
def hostMayFree (s : State) (a : Addr) : Prop := hostMay s (.free a)

/-- The host keeps its duties at an edge. -/
def hostKeepsDuties (e : Edge) (s : State) : Prop := ∀ acc ∈ e.hostAccesses, hostMay s acc

/-- Concurrent dispatches have disjoint outputs (R51, R205): the command on the port and those the executor holds. -/
def outsDisjoint (s : State) : Prop :=
  ∀ f, s.phase = .waitExec f (.due .command true) → ∀ h ∈ s.around.executor, outsOverlap h.cmd f.issued.cmd = false

/-- No duty toward a buffer has been broken so far. No claim about buffers may be stated of any other run (R51, U5), so a
claim about their contents has this premise. -/
def dutiesKept (s : State) : Prop := s.around.raced = []

/-! ### The end of a run -/

/-- A run has ended (R208): the host presents no further word, the QDB is in `IDLE`, and so every response has been
taken. -/
def runEnded (s : State) : Prop := (∀ e ∈ s.inbox, e.reqValid = false) ∧ s.inReset = false ∧ s.phase = .idle

/-- What the executor wrote, command by command (R208): those completed, those given up, then those it still holds. -/
def executorWrote (s : State) : List (ExecCmd × List Host.Cell) :=
  s.around.completed.map (fun x => (x.cmd, x.wrote)) ++ s.around.dropped.map (fun x => (x.cmd, x.wrote)) ++
    s.around.executor.map (fun x => (x.cmd, x.wrote))

/-- The observable result of a run (R208). -/
structure Observed where
  responses : List Response
  issued    : List Issued
  traced    : List TraceRec
  wrote     : List (ExecCmd × List Host.Cell)
  deriving DecidableEq, Repr

/-- The observable result so far. -/
def observed (s : State) : Observed := ⟨s.responses, s.issued, s.traced, executorWrote s⟩

/-- An edge at which the host presents a request word. -/
def wordEdge (w : Word) (last : Bool) : Edge := { quietEdge with reqValid := true, reqData := w, reqLast := last }

/-- The edges at which a host presents a whole packet. -/
def packetEdges : List Word → List Edge
  | [] => []
  | [w] => [wordEdge w true]
  | w :: ws => wordEdge w false :: packetEdges ws

/-- An edge at which the host takes a response word. -/
def readyEdge : Edge := { quietEdge with rspReady := true }

/-- An edge at which an attached sink takes the record on the trace port. -/
def sinkEdge : Edge := { quietEdge with sinkTakes := true }

/-- An edge at which the executor takes a command. -/
def commandEdge : Edge := { quietEdge with cmdReady := true }

/-- An edge at which the executor writes cells for its oldest command. -/
def writeEdge (ws : List (Addr × Byte)) : Edge := { quietEdge with execWrites := ws.map (fun x => ⟨0, x.1, x.2⟩) }

/-- An edge at which QDB and executor are reset together (R203). -/
def resetEdge : Edge := { quietEdge with rst := true, execRst := true }

/-- An edge at which the host accesses storage. -/
def accessEdge (acc : HostAccess) : Edge := { quietEdge with hostAccesses := [acc] }

/-- An edge at which the executor completes. -/
def doneEdge (ok : Bool) (err : Word) : Edge := { quietEdge with doneValid := true, doneOk := ok, doneErr := err }

end Sys2Proof.Safety
end

