-- ==== Sys2Proof/Certificates/Slice0/Obligations.lean ====
section
/-! DEFINITION. The statements for the provers. The docstring of each names the rule of spec/ it says, and where a clause
is the model's own choice, the log entry. A next state is written out as an update of the state before, so each
statement about an op says its result, its frame and that it completes. `aroundAfter e s` is what the other agents have
done at an edge; the statements about the buffers and the executor say what that is. -/

open Sys2Proof Sys2Proof.Machine Sys2Proof.Safety

/-! ## Encoding -/

/-- R61 to R66: decoding the packet of any instruction gives the instruction back, at every value of every operand. -/
def Obligations.DecodeEncodeRoundTrip : Prop :=
  ∀ i : Instr, decode (encode i) = .ok i

/-- R67: each packet has at most one meaning, and a packet that decodes is exactly the encoding of what it decodes to:
no bit of it is dropped. -/
def Obligations.EncodeDecodeRoundTrip : Prop :=
  ∀ (p : List Word) (i : Instr), decode p = .ok i → encode i = p

/-- R67: decode fails exactly for a reserved op code, a reserved header bit (R62's mask and match), a wrong length, or
QSHIFT's reserved operand bits. -/
def Obligations.DecodeSucceedsExactlyOnWellFormed : Prop :=
  ∀ (w0 : Word) (rest : List Word),
    ((∃ i, decode (w0 :: rest) = .ok i) ↔ packetWellFormed (w0 :: rest) = true) ∧
    ((∃ x, decode (w0 :: rest) = .error x) ↔
      w0.toNat % 16 = 0 ∨ 10 ≤ w0.toNat % 16 ∨
      (w0.toNat % 16 ≤ 7 ∧ 16 ≤ w0.toNat) ∨
      (w0.toNat % 16 = 8 ∧ w0 &&& 0xFFFFFFAF#32 ≠ 8) ∨
      (w0.toNat % 16 = 9 ∧ w0 &&& 0xFFFFFF8F#32 ≠ 9) ∨
      (1 ≤ w0.toNat % 16 ∧ w0.toNat % 16 ≤ 7 ∧ rest.length + 1 ≠ 2) ∨
      (w0.toNat % 16 = 8 ∧ rest.length + 1 ≠ 14) ∨
      (w0.toNat % 16 = 9 ∧ rest.length + 1 ≠ 18) ∨
      (w0.toNat % 16 = 4 ∧ 256 ≤ (rest.headD 0).toNat))

/-- R62 to R64, 95_test_vectors.md: packets written out word by word decode to the request they stand for. A sanity
statement. -/
def Obligations.WrittenOutPacketsDecode : Prop :=
  decode [0x00000001, 0x3DCCCCCD] = .ok (.quant 0x3DCCCCCD) ∧
  decode [0x00000002, 0x3F800000] = .ok (.qexp 0x3F800000) ∧
  decode [0x00000003, 0xBF800000] = .ok (.qnorm 0xBF800000) ∧
  decode [0x00000004, 0x0000007B] = .ok (.qshift 123) ∧
  decode [0x00000005, 0x00000008] = .ok (.dshift 8) ∧
  decode [0x00000006, 0xFFFFFFFF] = .ok (.mrot 0xFFFFFFFF) ∧
  decode [0x00000007, 0x00000002] = .ok (.munrot 2) ∧
  decode [0x00000058, 1, 8, 2, 3, 4, 0x89ABCDEF, 0x01234567, 0x2000, 0, 0x3000, 0, 0x4000, 0] =
    .ok (.dispc true true ⟨1, 8, 2, 3, 4, 0x0123456789ABCDEF, 0x2000, 0x3000, 0x4000⟩) ∧
  decode [0x00000069, 2, 1, 2, 3, 4, 0x1000, 0, 0x2000, 0, 0x3000, 0, 0x4000, 0, 8, 9, 10, 0] =
    .ok (.disps false true true ⟨2, 1, 2, 3, 4, 0x1000, 0x2000, 0x3000, 0x4000⟩ ⟨8, 9, 10, 0⟩)

/-- R61, R64: a DISPC packet of any header flags and operand words reads word by word as the rule's table says; addresses
are `{hi, lo}`. -/
def Obligations.DispatchWordsAreRead : Prop :=
  ∀ (relu rep biasEn : Bool) (w1 w2 w3 w4 w5 w6 w7 w8 w9 w10 w11 w12 w13 w14 w15 w16 w17 : Word),
    ∃ a : DispatchArgs,
      decode [BitVec.ofNat 32 (8 + 16 * relu.toNat + 64 * biasEn.toNat), w1, w2, w3, w4, w5, w6, w7, w8, w9, w10, w11,
        w12, w13] = .ok (.dispc relu biasEn a) ∧
      decode [BitVec.ofNat 32 (9 + 16 * relu.toNat + 32 * rep.toNat + 64 * biasEn.toNat), w1, w2, w3, w4, w5, w6, w7, w8,
        w9, w10, w11, w12, w13, w14, w15, w16, w17] = .ok (.disps relu rep biasEn a ⟨w14, w15, w16, w17⟩) ∧
      a.mode = w1 ∧ a.divisor = w2 ∧ a.dimI = w3 ∧ a.dimJ = w4 ∧ a.dimK = w5 ∧
      a.lhs.toNat = w6.toNat + 2 ^ 32 * w7.toNat ∧ a.rhs.toNat = w8.toNat + 2 ^ 32 * w9.toNat ∧
      a.out.toNat = w10.toNat + 2 ^ 32 * w11.toNat ∧ a.bias.toNat = w12.toNat + 2 ^ 32 * w13.toNat

/-- R44: the byte view loses nothing, and byte `k` of a word is its bits `[8k+7:8k]`. -/
def Obligations.ByteViewIsLittleEndian : Prop :=
  (∀ p : List Word, packetOfBytes (bytesOfPacket p) = some p) ∧
  ∀ (w : Word) (k : Nat), k < 4 → (bytesOfPacket [w])[k]? = some (BitVec.ofNat 8 (w.toNat / 2 ^ (8 * k)))

/-! ## Quantizer (40_quantizer.md) -/

/-- R108 (and R100): QEXP answers OK with bits [30:23] of every pattern, and changes nothing else. -/
def Obligations.QexpAnswersBiasedExponent : Prop :=
  ∀ (b : Word) (s : State),
    decode [0x00000002, b] = .ok (.qexp b) ∧
    exec (.qexp b) s =
      .next { s with phase := .resp ⟨.ok, 2, BitVec.ofNat 32 (b.toNat / 2 ^ 23 % 2 ^ 8), 0⟩ 0 false }

/-- R109: QNORM answers OK with `0x3F000000 | b[22:0]` for every pattern, and changes nothing else. -/
def Obligations.QnormAnswersBumpedPattern : Prop :=
  ∀ (b : Word) (s : State),
    decode [0x00000003, b] = .ok (.qnorm b) ∧
    exec (.qnorm b) s =
      .next { s with phase := .resp ⟨.ok, 3, BitVec.ofNat 32 (0x3F000000 + b.toNat % 2 ^ 23), 0⟩ 0 false }

/-- R110 (and R102): QSHIFT answers OK with `126 − e`, which fits; a packet with `W1[31:8] ≠ 0` is ILLEGAL_OPERATION. -/
def Obligations.QshiftAnswersShift : Prop :=
  (∀ (e : BitVec 8) (s : State),
    exec (.qshift e) s = .next { s with phase := .resp ⟨.ok, 4, BitVec.ofInt 32 (126 - e.toNat), 0⟩ 0 false } ∧
    (BitVec.ofInt 32 (126 - e.toNat)).toInt = 126 - e.toNat) ∧
  ∀ (w1 : Word) (s : State),
    if w1.toNat < 256 then decode [0x00000004, w1] = .ok (.qshift (BitVec.ofNat 8 w1.toNat))
    else acceptPacket [0x00000004, w1] s = .next { s with phase := .resp ⟨.illegalOperation, 4, 0, 0⟩ 0 false }

/-- R107 (and R178): QUANT answers OK for every pattern: in domain (as numbers, from 1 to below +∞'s pattern) the pair of
the algorithm, out of domain two fresh draws; nothing else changes but the model's count of draws. The model's choice, log
entry 3: that a draw is an opaque function of a counter, which each draw advances by one. -/
def Obligations.QuantAnswersPairOrDraws : Prop :=
  ∀ (b : Word) (s : State),
    decode [0x00000001, b] = .ok (.quant b) ∧
    exec (.quant b) s =
      if 0 < b.toNat ∧ b.toNat < 0x7F800000 then
        .next { s with
          phase := .resp ⟨.ok, 1, BitVec.ofNat 32 ((2 ^ 23 + b.toNat % 2 ^ 23) * 2 ^ 7),
            BitVec.ofInt 32 (126 - (b.toNat / 2 ^ 23 : Nat))⟩ 0 false }
      else
        .next { s with
          draws := s.draws + 2
          phase := .resp ⟨.ok, 1, Config.draw32 s.draws, Config.draw32 (s.draws + 1)⟩ 0 false }

/-- R104: the domain is the set of patterns of a finite value greater than zero, and fails for every negative pattern,
+0, +∞ and the NaNs. -/
def Obligations.DomainIsFinitePositive : Prop :=
  ∀ b : Word,
    (inDomain b = true ↔ ∃ q, f32val b = .finite q ∧ 0 < q) ∧
    (inDomain b = true ↔
      b.toNat / 2 ^ 31 = 0 ∧ b.toNat / 2 ^ 23 % 256 ≠ 255 ∧
        ¬(b.toNat / 2 ^ 23 % 256 = 0 ∧ b.toNat % 2 ^ 23 = 0))

/-- R101, R103: MANT_NORM keeps the fraction, its value is `(2^23 + F) · 2^(−24)` in `[0.5, 1)`, and the sign does not
matter; MULT_SCALE of it is exactly its value times `2^31`, so no rounding rule matters, and lies in
`[2^30, 2^31 − 2^7]`. -/
def Obligations.BumpedPatternScalesExactly : Prop :=
  ∀ b : Word, ∃ q : Rat,
    mantNorm b = BitVec.ofNat 32 (0x3F000000 + b.toNat % 2 ^ 23) ∧
    f32val (mantNorm b) = .finite q ∧
    q = ((2 ^ 23 + b.toNat % 2 ^ 23 : Nat) : Rat) / 2 ^ 24 ∧
    1 / 2 ≤ q ∧ q ≤ 1 - 1 / 2 ^ 24 ∧
    mantNorm (b ^^^ 0x80000000) = mantNorm b ∧
    multScale (mantNorm b) = (2 ^ 23 + (b.toNat % 2 ^ 23 : Nat)) * 2 ^ 7 ∧
    ((multScale (mantNorm b) : Int) : Rat) = q * 2 ^ 31 ∧
    2 ^ 30 ≤ multScale (mantNorm b) ∧ multScale (mantNorm b) ≤ 2 ^ 31 - 2 ^ 7

/-- R105: for every positive normal pattern, the pair QUANT answers reconstructs the scale exactly. -/
def Obligations.QuantIsExactOnNormals : Prop :=
  ∀ (b : Word) (s : State), 2 ^ 23 ≤ b.toNat → b.toNat < 0x7F800000 →
    ∃ r1 r2 : Word, exec (.quant b) s = .next { s with phase := .resp ⟨.ok, 1, r1, r2⟩ 0 false } ∧
      f32val b = .finite ((r1.toInt : Rat) * twoPow (-31) * twoPow (-r2.toInt))

/-- R106: for a positive subnormal pattern the answer is `((2^23 + F) · 2^7, 126)`, and it reconstructs more than the
scale, by the factor `(1 + 2^23 / F) / 2`. -/
def Obligations.QuantOverstatesSubnormals : Prop :=
  ∀ (b : Word) (s : State), 0 < b.toNat → b.toNat < 2 ^ 23 →
    ∃ r1 r2 : Word, ∃ q : Rat,
      exec (.quant b) s = .next { s with phase := .resp ⟨.ok, 1, r1, r2⟩ 0 false } ∧
      r2.toInt = 126 ∧ r1.toInt = (2 ^ 23 + (b.toNat : Int)) * 2 ^ 7 ∧
      f32val b = .finite q ∧
      (r1.toInt : Rat) * twoPow (-31) * twoPow (-r2.toInt) = q * ((1 + 2 ^ 23 / (b.toNat : Rat)) / 2) ∧
      q < (r1.toInt : Rat) * twoPow (-31) * twoPow (-r2.toInt)

/-- R112: the ranges of an in-domain answer. -/
def Obligations.QuantResultRanges : Prop :=
  ∀ (b : Word) (s : State), inDomain b = true →
    ∃ r1 r2 : Word, exec (.quant b) s = .next { s with phase := .resp ⟨.ok, 1, r1, r2⟩ 0 false } ∧
      2 ^ 30 ≤ r1.toInt ∧ r1.toInt ≤ 2 ^ 31 - 128 ∧ r1.toInt % 128 = 0 ∧
      -128 ≤ r2.toInt ∧ r2.toInt ≤ 126 ∧ (r2.toInt = 126 ↔ b.toNat / 2 ^ 23 % 256 = 0) ∧
      (b.toNat / 2 ^ 23 % 256 = 1 → r2.toInt = 125)

/-- R111: the sub-unit ops and QUANT agree: R1 of QUANT is MULT_SCALE of R1 of QNORM, and R2 of QUANT is R1 of QSHIFT of
R1 of QEXP; out of domain QUANT returns draws, in the form the model chose for them (log entry 3). -/
def Obligations.SubUnitsCompose : Prop :=
  ∀ (b : Word) (s : State), ∃ n e k : Word,
    exec (.qnorm b) s = .next { s with phase := .resp ⟨.ok, 3, n, 0⟩ 0 false } ∧
    exec (.qexp b) s = .next { s with phase := .resp ⟨.ok, 2, e, 0⟩ 0 false } ∧
    e.toNat < 256 ∧
    exec (.qshift (BitVec.ofNat 8 e.toNat)) s = .next { s with phase := .resp ⟨.ok, 4, k, 0⟩ 0 false } ∧
    exec (.quant b) s =
      if inDomain b then .next { s with phase := .resp ⟨.ok, 1, BitVec.ofInt 32 (multScale n), k⟩ 0 false }
      else .next { s with
        draws := s.draws + 2
        phase := .resp ⟨.ok, 1, Config.draw32 s.draws, Config.draw32 (s.draws + 1)⟩ 0 false }

/-! ## Dispatcher arithmetic (41_dispatcher.md section 1, R13) -/

/-- R13: on a word with exactly one set bit the two counts add to 31; both are 32 on 0. -/
def Obligations.BitCountsOfOneBit : Prop :=
  (∀ w : Word, popcount32 w = 1 → clz32 w + ctz32 w = 31 ∧ w.toNat = 2 ^ ctz32 w) ∧
  clz32 0 = 32 ∧ ctz32 0 = 32

/-- R130: POW2 holds for exactly the 31 values `2^0 … 2^30`. -/
def Obligations.Pow2HoldsForThirtyOneValues : Prop :=
  ∀ d : Word, isPow2 d = true ↔ ∃ k ≤ 30, d.toNat = 2 ^ k

/-- R131: on a valid divisor DERIVE_SHIFT is `31 − clz32`, `ctz32` and the logarithm, in 0…30. -/
def Obligations.DeriveShiftIsLogarithm : Prop :=
  ∀ d : Word, isPow2 d = true →
    deriveShift d = 31 - clz32 d ∧ deriveShift d = ctz32 d ∧ deriveShift d ≤ 30 ∧ d.toNat = 2 ^ deriveShift d

/-- R132, R135: ROT is the exact floored residue of `m − 1`, whatever `m`; modes out of range wrap. -/
def Obligations.RotIsFlooredResidue : Prop :=
  ∀ (modes : Nat) (m : Int), 0 < modes →
    0 ≤ rot modes m ∧ rot modes m < modes ∧ (modes : Int) ∣ (m - 1 - rot modes m) ∧ rot modes m = rot modes (m % modes)

/-- R133: on the mode range, 0 goes to the last slot and `k` to slot `k − 1`, and ROT is a bijection of the range. -/
def Obligations.RotIsBijectionOnModes : Prop :=
  ∀ modes : Nat, 0 < modes →
    rot modes 0 = modes - 1 ∧
    (∀ k : Int, 1 ≤ k → k ≤ modes - 1 → rot modes k = k - 1) ∧
    ∀ i : Int, 0 ≤ i → i < modes → ∃! m : Int, 0 ≤ m ∧ m < modes ∧ rot modes m = i

/-- R134: UNROT undoes ROT and ROT undoes UNROT, up to the residue, for every integer; on the range both are the
identity. -/
def Obligations.UnrotInvertsRot : Prop :=
  ∀ (modes : Nat) (m : Int), 0 < modes →
    unrot modes m = (m + 1) % modes ∧ unrot modes (rot modes m) = m % modes ∧ rot modes (unrot modes m) = m % modes ∧
    (0 ≤ m → m < modes → unrot modes (rot modes m) = m ∧ rot modes (unrot modes m) = m)

/-! ## Dispatcher ops (41_dispatcher.md sections 2 and 3) -/

/-- R140: DSHIFT of `2^k`, `k ≤ 30`, answers OK with `k`; of anything else INVALID_ARGUMENT. Nothing else changes. -/
def Obligations.DshiftValidatesAndDerives : Prop :=
  ∀ (d : Word) (s : State),
    decode [0x00000005, d] = .ok (.dshift d) ∧
    (∀ k ≤ 30, d.toNat = 2 ^ k →
      exec (.dshift d) s = .next { s with phase := .resp ⟨.ok, 5, BitVec.ofNat 32 k, 0⟩ 0 false }) ∧
    ((∀ k ≤ 30, d.toNat ≠ 2 ^ k) →
      exec (.dshift d) s = .next { s with phase := .resp ⟨.invalidArgument, 5, 0, 0⟩ 0 false })

/-- R141: MROT answers OK with `(m − 1) mod M` for every `i32` mode and every `M`; the subtraction does not wrap. -/
def Obligations.MrotAnswersInternalMode : Prop :=
  ∀ (m : Word) (s : State),
    decode [0x00000006, m] = .ok (.mrot m) ∧
    exec (.mrot m) s =
      .next { s with phase := .resp ⟨.ok, 6, BitVec.ofInt 32 ((m.toInt - 1) % (s.modesPred.val + 1)), 0⟩ 0 false } ∧
    (BitVec.ofInt 32 ((m.toInt - 1) % (s.modesPred.val + 1))).toNat < s.modesPred.val + 1

/-- R142: MUNROT answers OK with `(i + 1) mod M` for every `i32` and every `M`; the addition does not wrap. -/
def Obligations.MunrotAnswersExternalMode : Prop :=
  ∀ (i : Word) (s : State),
    decode [0x00000007, i] = .ok (.munrot i) ∧
    exec (.munrot i) s =
      .next { s with phase := .resp ⟨.ok, 7, BitVec.ofInt 32 ((i.toInt + 1) % (s.modesPred.val + 1)), 0⟩ 0 false } ∧
    (BitVec.ofInt 32 ((i.toInt + 1) % (s.modesPred.val + 1))).toNat < s.modesPred.val + 1

/-- R143, R137, R139, R23, R136, R205: DISPC with a valid divisor emits its two records, issues the packed command and
waits; the state it leaves is written out, so all else is unchanged. The model's choices: the records and the command
count at acceptance, before the ports show them (log entry 9, the stage `due .backend false`); the loan is kept by its
command, all four buffers whatever `bias_en` is (log entry 11); the select is held in 256 bits (log entry 7). -/
def Obligations.DispcForwardsPackedCommand : Prop :=
  ∀ (relu biasEn : Bool) (a : DispatchArgs) (s : State) (k : Nat), k ≤ 30 → a.divisor.toNat = 2 ^ k →
    let im : Int := (a.mode.toInt - 1) % (s.modesPred.val + 1)
    let cmd : ExecCmd :=
      { internalMode := BitVec.ofInt 32 im, dimI := a.dimI, dimJ := a.dimJ, dimK := a.dimK,
        lhs := a.lhs, rhs := a.rhs, out := a.out, bias := a.bias,
        strides := ⟨a.dimK, a.dimJ, a.dimJ, a.dimJ⟩,
        activation := relu, repeatingBias := false, biasEn := biasEn,
        shift := BitVec.ofNat 32 k, relu6Shift := 0 }
    let x : Issued := ⟨cmd, BitVec.ofNat 256 (2 ^ im.toNat)⟩
    exec (.dispc relu biasEn a) s =
      .next { s with
        traced := s.traced ++ [.backend a.mode (BitVec.ofInt 32 im) 8, .dims a.dimI a.dimJ a.dimK]
        issued := s.issued ++ [x]
        loan := some cmd
        phase := .waitExec ⟨.dispc, a.mode, x⟩ (.due .backend false) }

/-- R144, R138, R139, R23, R136, R205: DISPS with a valid divisor does the same with the request's strides and
repeating-bias flag. The model's choices are those of the statement before: log entries 7, 9 and 11. -/
def Obligations.DispsForwardsStridedCommand : Prop :=
  ∀ (relu rep biasEn : Bool) (a : DispatchArgs) (st : Strides) (s : State) (k : Nat), k ≤ 30 → a.divisor.toNat = 2 ^ k →
    let im : Int := (a.mode.toInt - 1) % (s.modesPred.val + 1)
    let cmd : ExecCmd :=
      { internalMode := BitVec.ofInt 32 im, dimI := a.dimI, dimJ := a.dimJ, dimK := a.dimK,
        lhs := a.lhs, rhs := a.rhs, out := a.out, bias := a.bias,
        strides := st,
        activation := relu, repeatingBias := rep, biasEn := biasEn,
        shift := BitVec.ofNat 32 k, relu6Shift := 0 }
    let x : Issued := ⟨cmd, BitVec.ofNat 256 (2 ^ im.toNat)⟩
    exec (.disps relu rep biasEn a st) s =
      .next { s with
        traced := s.traced ++ [.backend a.mode (BitVec.ofInt 32 im) 9, .dims a.dimI a.dimJ a.dimK]
        issued := s.issued ++ [x]
        loan := some cmd
        phase := .waitExec ⟨.disps, a.mode, x⟩ (.due .backend false) }

/-- R172 (and R176, R41): a dispatch or DSHIFT whose divisor is no positive power of two answers (INVALID_ARGUMENT, 0, 0) and does
nothing else: no trace, no command, no buffer on loan. -/
def Obligations.InvalidDivisorIsRejected : Prop :=
  ∀ (d : Word) (a : DispatchArgs) (relu rep biasEn : Bool) (st : Strides) (s : State),
    a.divisor = d → (∀ k ≤ 30, d.toNat ≠ 2 ^ k) →
    exec (.dshift d) s = .next { s with phase := .resp ⟨.invalidArgument, 5, 0, 0⟩ 0 false } ∧
    exec (.dispc relu biasEn a) s = .next { s with phase := .resp ⟨.invalidArgument, 8, 0, 0⟩ 0 false } ∧
    exec (.disps relu rep biasEn a st) s = .next { s with phase := .resp ⟨.invalidArgument, 9, 0, 0⟩ 0 false }

/-- R145: DISPC and the DISPS of the packed strides and `rep = 0` issue the same command on the same select, lend the same
buffers, and emit the same records but for the op word of `T_BACKEND`; an executor that is any function `EXEC` of the
command writes the same for both, and its completions give responses that differ in the op field only. With an invalid divisor both are INVALID_ARGUMENT. -/
def Obligations.StridedParity : Prop :=
  ∀ (relu biasEn : Bool) (a : DispatchArgs) (s : State),
    if isPow2 a.divisor then
      ∃ (t t' : State) (f f' : Flight) (im : Word),
        exec (.dispc relu biasEn a) s = .next t ∧
        exec (.disps relu false biasEn a ⟨a.dimK, a.dimJ, a.dimJ, a.dimJ⟩) s = .next t' ∧
        t.issued = t'.issued ∧ t.loan = t'.loan ∧
        t.traced = s.traced ++ [.backend a.mode im 8, .dims a.dimI a.dimJ a.dimK] ∧
        t'.traced = s.traced ++ [.backend a.mode im 9, .dims a.dimI a.dimJ a.dimK] ∧
        t.phase = .waitExec f (.due .backend false) ∧ t'.phase = .waitExec f' (.due .backend false) ∧
        ∀ EXEC : ExecCmd → List Host.Cell × Bool × Word,
          (EXEC f.issued.cmd).1 = (EXEC f'.issued.cmd).1 ∧
          ∃ (st : Status) (r1 : Word),
            pendingResponse (completeDispatch f (EXEC f.issued.cmd).2.1 (EXEC f.issued.cmd).2.2 t) =
              some ⟨st, 8, r1, 0⟩ ∧
            pendingResponse (completeDispatch f' (EXEC f'.issued.cmd).2.1 (EXEC f'.issued.cmd).2.2 t') =
              some ⟨st, 9, r1, 0⟩
    else
      exec (.dispc relu biasEn a) s = .next { s with phase := .resp ⟨.invalidArgument, 8, 0, 0⟩ 0 false } ∧
      exec (.disps relu false biasEn a ⟨a.dimK, a.dimJ, a.dimJ, a.dimJ⟩) s =
        .next { s with phase := .resp ⟨.invalidArgument, 9, 0, 0⟩ 0 false }

/-- R136: the select that goes with any dispatch's command has exactly one bit, the internal mode's, below `M`. -/
def Obligations.SelectIsOneHot : Prop :=
  ∀ (modes : Nat) (relu rep biasEn : Bool) (a : DispatchArgs) (st : Strides), 0 < modes → modes ≤ 256 →
    (buildIssued modes relu rep biasEn a st).cmd.internalMode.toNat = (rot modes a.mode.toInt).toNat ∧
    (buildIssued modes relu rep biasEn a st).cmd.internalMode.toNat < modes ∧
    ∀ j, (buildIssued modes relu rep biasEn a st).sel.getLsbD j = decide (j = (rot modes a.mode.toInt).toNat)

/-! ## Layout of what leaves the QDB -/

/-- R69, R70: the 19 words of a command record stand at bits `[32k+31:32k]` of `cmd_data`, the addresses low word first,
the three flags in bits 0, 1 and 2 of X16. -/
def Obligations.CommandDataLayout : Prop :=
  ∀ c : ExecCmd,
    (commandWords c).length = 19 ∧
    (∀ k < 19, some ((commandData c).extractLsb' (32 * k) 32) = (commandWords c)[k]?) ∧
    (commandData c).extractLsb' 0 32 = c.internalMode ∧
    (commandData c).extractLsb' 32 32 = c.dimI ∧ (commandData c).extractLsb' 64 32 = c.dimJ ∧
    (commandData c).extractLsb' 96 32 = c.dimK ∧
    (commandData c).extractLsb' 128 64 = c.lhs ∧ (commandData c).extractLsb' 192 64 = c.rhs ∧
    (commandData c).extractLsb' 256 64 = c.out ∧ (commandData c).extractLsb' 320 64 = c.bias ∧
    (commandData c).extractLsb' 384 32 = c.strides.lhs ∧ (commandData c).extractLsb' 416 32 = c.strides.rhs ∧
    (commandData c).extractLsb' 448 32 = c.strides.out ∧ (commandData c).extractLsb' 480 32 = c.strides.bias ∧
    (commandData c).getLsbD 512 = c.activation ∧ (commandData c).getLsbD 513 = c.repeatingBias ∧
    (commandData c).getLsbD 514 = c.biasEn ∧ (commandData c).extractLsb' 515 29 = 0 ∧
    (commandData c).extractLsb' 544 32 = c.shift ∧ (commandData c).extractLsb' 576 32 = c.relu6Shift

/-- R68, R171: word R0 of a response: status code, echoed op, zeros; then R1 and R2. R72, R24: the four words of a trace
record on `trc_data`, T0 in bits [31:0]. -/
def Obligations.ResponseAndTraceLayout : Prop :=
  (∀ r : Response,
    (responseWord r 0).extractLsb' 0 8 = statusCode r.status ∧
    (responseWord r 0).extractLsb' 8 4 = r.op ∧
    (responseWord r 0).extractLsb' 12 20 = 0 ∧
    responseWord r 1 = r.r1 ∧ responseWord r 2 = r.r2 ∧
    statusCode .ok = 0 ∧ statusCode .invalidArgument = 1 ∧ statusCode .executorFailure = 2 ∧
    statusCode .illegalOperation = 3) ∧
  ∀ (mode im i j k : Word) (op : BitVec 4),
    (traceData (.backend mode im op)).extractLsb' 0 32 = 1 ∧
    (traceData (.backend mode im op)).extractLsb' 32 32 = mode ∧
    (traceData (.backend mode im op)).extractLsb' 64 32 = im ∧
    (traceData (.backend mode im op)).extractLsb' 96 32 = op.setWidth 32 ∧
    (traceData (.dims i j k)).extractLsb' 0 32 = 2 ∧
    (traceData (.dims i j k)).extractLsb' 32 32 = i ∧
    (traceData (.dims i j k)).extractLsb' 64 32 = j ∧
    (traceData (.dims i j k)).extractLsb' 96 32 = k

/-! ## The machine: requests and responses -/

/-- R23, R25: at an edge without reset in `IDLE` or `RECV` at which the packet's last word is taken, if the packet decodes
the step is exactly `exec` of the instruction, on the state in which the other agents have acted (R8, R28), then moved on
(R30). The model's choices: what the other agents' side holds (log entries 10, 12 and 20 to 23), that a completion at this edge
is discarded (log entry 15), and that the latency is the edge's `advance` (log entry 14, `moveOn`). The `IDLE` case of the
premise is that of a one-word packet, which no op has; the `RECV` case carries the statement. -/
def Obligations.StepRunsDecodedInstruction : Prop :=
  ∀ (s : State) (e : Edge) (rest : List Edge) (before : List Word) (i : Instr),
    s.inbox = e :: rest → e.rst = false → s.inReset = false →
    (s.phase = .recv before ∨ (s.phase = .idle ∧ before = [])) →
    e.reqValid = true → e.reqLast = true → decode (before ++ [e.reqData]) = .ok i →
    step s = moveOn e (exec i { s with inbox := rest, around := aroundAfter e s })

/-- The host's placing of an instruction (log entry 4): the very next step runs it, whatever the state. -/
def Obligations.PlacedInstructionRuns : Prop :=
  ∀ (s : State) (nbits w : Nat) (i : Instr), decodeTableWord nbits w = some i →
    step (s.withFetchWord nbits w) =
      exec i { s with inReset := false, phase := phaseBeforeLast (tablePacket nbits w), loan := none }

/-- R174, R67: a packet that does not decode is answered with (ILLEGAL_OPERATION, 0, 0) and the received `W0[3:0]`; no
trace, no command, nothing else but what the other agents did at the edge. The model's choices: the other agents' side (log
entries 10, 12 and 20 to 23), and that the response is shown from the next cycle on exactly if `advance` (log entry 14). -/
def Obligations.IllegalPacketIsAnswered : Prop :=
  ∀ (s : State) (e : Edge) (rest : List Edge) (before : List Word) (x : DecodeError),
    s.inbox = e :: rest → e.rst = false → s.inReset = false →
    (s.phase = .recv before ∨ (s.phase = .idle ∧ before = [])) →
    e.reqValid = true → e.reqLast = true → decode (before ++ [e.reqData]) = .error x →
    step s = .next { s with
      inbox := rest
      around := aroundAfter e s
      phase := .resp ⟨.illegalOperation, ((before ++ [e.reqData]).headD 0).extractLsb' 0 4, 0, 0⟩ 0 e.advance }

/-- R175: when a packet is answered at once, the status is ILLEGAL_OPERATION exactly if it does not decode,
INVALID_ARGUMENT exactly if it decodes to an op with a divisor that is no positive power of two, and never
EXECUTOR_FAILURE. -/
def Obligations.OneStatusInPriorityOrder : Prop :=
  ∀ (p : List Word) (s t : State) (r : Response), acceptPacket p s = .next t → pendingResponse t = some r →
    (r.status = .illegalOperation ↔ ∃ x, decode p = .error x) ∧
    (r.status = .invalidArgument ↔ ∃ i d, decode p = .ok i ∧ isPow2 d = false ∧
      (i = .dshift d ∨ (∃ relu b a, i = .dispc relu b a ∧ a.divisor = d) ∨
        (∃ relu rep b a st, i = .disps relu rep b a st ∧ a.divisor = d))) ∧
    r.status ≠ .executorFailure

/-- R24, R25, R204: `req_ready` is 1 exactly in `IDLE` and `RECV` (outside reset); while it is 0 the request inputs have no
effect; a word that is not the last of its packet is collected; while no word is presented there is no transfer, and the
words collected so far stay. Nothing else happens but what the other agents did at the edge. The model's choices: the
other agents' side (log entries 10, 12 and 20 to 23), and that `RECV` keeps every word (log entry 16). -/
def Obligations.RequestPortTakesWordsWhileOpen : Prop :=
  (∀ s : State, s.inReset = false →
    ((ports false s).reqReady = true ↔ s.phase = .idle ∨ ∃ ws, s.phase = .recv ws)) ∧
  (∀ (s : State) (e : Edge) (rest : List Edge) (v l : Bool) (w : Word),
    s.inbox = e :: rest → (ports e.rst s).reqReady = false →
    step s = step { s with inbox := { e with reqValid := v, reqData := w, reqLast := l } :: rest }) ∧
  ∀ (s : State) (e : Edge) (rest : List Edge) (before : List Word),
    s.inbox = e :: rest → e.rst = false → s.inReset = false →
    (s.phase = .recv before ∨ (s.phase = .idle ∧ before = [])) →
    (e.reqValid = true → e.reqLast = false →
      step s = .next { s with inbox := rest, around := aroundAfter e s, phase := .recv (before ++ [e.reqData]) }) ∧
    (e.reqValid = false → step s = .next { s with inbox := rest, around := aroundAfter e s })

/-- R26, R177: in `RESP(r)` the port shows R0, R1, R2 in order with `rsp_last` on R2; a shown word is held until taken;
taking R2 delivers the response, returns the buffers and leads to `IDLE`. Nothing is dropped. The model's choices: gaps
between the words, decided by `advance` (log entry 14); the other agents' side (log entries 10, 12 and 20 to 23); and what a loan
is (log entry 11). -/
def Obligations.ResponseIsDeliveredInOrder : Prop :=
  ∀ (s : State) (e : Edge) (rest : List Edge) (r : Response) (k : Fin 3) (shown : Bool),
    s.inbox = e :: rest → e.rst = false → s.inReset = false → s.phase = .resp r k shown →
    (ports false s).rsp = (if shown then some (responseWord r k, k == 2) else none) ∧
    step s = .next (
      if shown = true ∧ e.rspReady = true then
        if k = 2 then
          { s with
            inbox := rest
            around := aroundAfter e s
            responses := s.responses ++ [r], loan := none, phase := .idle }
        else { s with inbox := rest, around := aroundAfter e s, phase := .resp r (k + 1) e.advance }
      else { s with inbox := rest, around := aroundAfter e s, phase := .resp r k (shown || e.advance) })

/-! ## The machine: waiting for the executor -/

/-- R23, R173, R28: a completion taken in `WAIT_EXEC` ends the wait: OK, or EXECUTOR_FAILURE with the error word unchanged
in R1. Nothing is undone and nothing more is issued or traced. `st` is any stage: that a completion before the command is
taken ends the wait is R28's, that the ports then drop what they have not shown is the model's choice (log entry 6), and
so is that the response is shown from the next cycle on exactly if `advance` (R30, log entry 14). -/
def Obligations.CompletionEndsTheWait : Prop :=
  ∀ (s : State) (e : Edge) (rest : List Edge) (f : Flight) (st : Stage),
    s.inbox = e :: rest → e.rst = false → s.inReset = false → s.phase = .waitExec f st → e.doneValid = true →
    ∃ t : State, step s = .next t ∧
      t.phase = .resp ⟨if e.doneOk then .ok else .executorFailure, dispatchOpCode f.op,
        if e.doneOk then 0 else e.doneErr, 0⟩ 0 e.advance ∧
      t.responses = s.responses ∧ t.issued = s.issued ∧ t.traced = s.traced ∧ t.loan = s.loan ∧
      t.around = aroundAfter e s ∧ t.draws = s.draws ∧ t.modesPred = s.modesPred ∧ t.inReset = false ∧ t.inbox = rest

/-- R202, R28: a completion taken outside `WAIT_EXEC`, or in reset, changes nothing of the QDB: the step differs from one
without it only on the executor's side (log entry 10). -/
def Obligations.StaleCompletionIsDiscarded : Prop :=
  ∀ (s : State) (e : Edge) (rest : List Edge),
    s.inbox = e :: rest → (e.rst = true ∨ s.inReset = true ∨ ∀ f st, s.phase ≠ .waitExec f st) →
    ∃ t t' : State, step s = .next t ∧ step { s with inbox := { e with doneValid := false } :: rest } = .next t' ∧
      { t with around := s.around } = { t' with around := s.around }

/-- R180: `WAIT_EXEC` is left by a completion or by reset and by nothing else: at any other edge the QDB waits on, for the
same dispatch, with the request port closed and no response. -/
def Obligations.WaitEndsOnlyByCompletionOrReset : Prop :=
  ∀ (s : State) (e : Edge) (rest : List Edge) (f : Flight) (st : Stage),
    s.inbox = e :: rest → e.rst = false → s.inReset = false → s.phase = .waitExec f st → e.doneValid = false →
    ∃ (t : State) (st' : Stage), step s = .next t ∧ t.phase = .waitExec f st' ∧
      t.responses = s.responses ∧ t.issued = s.issued ∧ t.traced = s.traced ∧ t.loan = s.loan ∧
      (ports false t).reqReady = false ∧ (ports false t).rsp = none

/-- R180: if the executor never completes and there is no reset, the QDB stays in `WAIT_EXEC` for ever, and the run has no
end (R208). -/
def Obligations.HangLastsForever : Prop :=
  ∀ (k : Nat) (s : State) (f : Flight) (st : Stage),
    s.inReset = false → s.phase = .waitExec f st → (∀ e ∈ s.inbox, e.rst = false ∧ e.doneValid = false) →
    ∃ (t : State) (st' : Stage), Host.Core.run Sys2Proof.core k s = .next t ∧ t.phase = .waitExec f st' ∧
      t.responses = s.responses ∧ ¬ runEnded t

/-- R27: the command appears on the port with `advance` (log entry 14) and not before; once presented it stays stable, data
and select, until the executor takes it (or the wait ends); then `cmd_valid` falls and the executor holds the command, in
the list that is the model's form of it (log entry 10), unless it is itself reset at that edge (log entry 23). Nothing
else changes but what the other agents did. -/
def Obligations.CommandIsStableUntilTaken : Prop :=
  ∀ (s : State) (e : Edge) (rest : List Edge) (f : Flight),
    s.inbox = e :: rest → e.rst = false → s.inReset = false → e.doneValid = false →
    (s.phase = .waitExec f (.due .command false) →
      (ports false s).cmd = none ∧
      step s = .next { s with
        inbox := rest, around := aroundAfter e s, phase := .waitExec f (.due .command e.advance) }) ∧
    (s.phase = .waitExec f (.due .command true) →
      (ports false s).cmd = some (commandData f.issued.cmd) ∧ (ports false s).cmdSel = some f.issued.sel ∧
      (aroundAfter e s).executor.map Taken.cmd =
        (if e.execRst then []
          else s.around.executor.map Taken.cmd ++ (if e.cmdReady then [f.issued.cmd] else [])) ∧
      step s = .next { s with
        inbox := rest
        around := aroundAfter e s
        phase := .waitExec f (if e.cmdReady then .taken else .due .command true) }) ∧
    (s.phase = .waitExec f .taken →
      (ports false s).cmd = none ∧
      step s = .next { s with inbox := rest, around := aroundAfter e s })

/-- R29: what is due appears with `advance` and not before, and nothing due is skipped: stage `due item false` becomes
`due item e.advance`. A trace record on the port is there for one cycle, `T_BACKEND` before `T_DIMS`, both before the command;
the QDB never stalls on the port: the sink takes the record or it is lost. The model's choices: the latency is the edge's
`advance` (log entry 14), an attached sink is the input `sinkTakes` (log entry 13). Nothing else changes but what the other
agents did. -/
def Obligations.TraceRecordsLastOneCycle : Prop :=
  ∀ (s : State) (e : Edge) (rest : List Edge) (f : Flight),
    s.inbox = e :: rest → e.rst = false → s.inReset = false → e.doneValid = false →
    (∀ item, s.phase = .waitExec f (.due item false) →
      (ports false s).trc = none ∧ (ports false s).cmd = none ∧ (aroundAfter e s).sink = s.around.sink ∧
      step s = .next { s with
        inbox := rest, around := aroundAfter e s, phase := .waitExec f (.due item e.advance) }) ∧
    (s.phase = .waitExec f (.due .backend true) →
      (ports false s).trc = some (traceData (backendRecord f)) ∧ (ports false s).cmd = none ∧
      (aroundAfter e s).sink = s.around.sink ++ (if e.sinkTakes then [backendRecord f] else []) ∧
      step s = .next { s with
        inbox := rest, around := aroundAfter e s, phase := .waitExec f (.due .dims e.advance) }) ∧
    (s.phase = .waitExec f (.due .dims true) →
      (ports false s).trc = some (traceData (dimsRecord f)) ∧ (ports false s).cmd = none ∧
      (aroundAfter e s).sink = s.around.sink ++ (if e.sinkTakes then [dimsRecord f] else []) ∧
      step s = .next { s with
        inbox := rest, around := aroundAfter e s, phase := .waitExec f (.due .command e.advance) })

/-- R21, R40, R185: whether a trace sink takes a record, whatever host and executor do to buffers, and whether the executor
is reset (an input of the model's own, log entry 23), the QDB is the same after the step: only the other agents' side
differs. -/
def Obligations.SinkAndBuffersHaveNoEffect : Prop :=
  ∀ (s : State) (e : Edge) (rest : List Edge) (b : Bool) (accesses : List HostAccess) (writes : List ExecWrite)
    (seen : List Nat) (execRst : Bool), s.inbox = e :: rest →
    ∃ t t' : State, step s = .next t ∧
      step { s with inbox := { e with
        sinkTakes := b, hostAccesses := accesses, execRst := execRst, execWrites := writes, visible := seen } :: rest } =
          .next t' ∧
      { t with around := s.around } = { t' with around := s.around }

/-! ## The buffers and the executor -/

/-- R51, R205: an access of the host while the buffers of the commands `cs` are on loan. It breaks a duty with each of these
buffers that has its address, unless it reads `lhs`, `rhs` or `bias`; that is a race on the buffer, and no byte of it is
defined any more. Every other byte is as it was, but for the one written or freed. A read gives the byte if it is still
defined, and a free value if not. The model's choices: which addresses a buffer has is opaque (log entry 19), a race lasts
for ever and its bytes are free values of a counter (log entry 20), and so is a byte nothing was written to (log entry 12). -/
def Obligations.HostAccessesReadWriteOrRace : Prop :=
  (∀ (a : Addr) (b : Byte) (k : Buffer),
    (forbids (.read a) k = true ↔ k = .out) ∧ forbids (.write a b) k = true ∧ forbids (.free a) k = true) ∧
  ∀ (cs : List ExecCmd) (r : Around) (acc : HostAccess),
    (∀ x : Region, x ∈ (hostAccess cs r acc).raced ↔ x ∈ r.raced ∨
      (x.cmd ∈ cs ∧ forbids acc x.which = true ∧ inBuffer x.which x.cmd (accessAddr acc) = true)) ∧
    (∀ x : Addr, definedByte (hostAccess cs r acc) x =
      if inRace r x || cs.any (fun c => [Buffer.lhs, .rhs, .out, .bias].any (fun k =>
          forbids acc k && inBuffer k c (accessAddr acc) && inBuffer k c x)) then none
      else
        match acc with
        | .read _ => memRead r.mem x.toNat
        | .write a b => if x = a then some b else memRead r.mem x.toNat
        | .free a => if x = a then none else memRead r.mem x.toNat) ∧
    (hostAccess cs r acc).hostReads = r.hostReads ++
      match acc with
      | .read a => [(a.toNat, (definedByte (hostAccess cs r acc) a).getD (Config.freeByte r.freeReads))]
      | .write _ _ => []
      | .free _ => []

/-- R7 `EXEC`, R8, R28, R47, R203, R208: the executor acts only for commands it holds (`held`: those before the edge and
one it takes at it). What it writes is recorded with the command it is for (`now`), and is sent toward the host, who sees
it when the platform makes it visible and not before, whatever the QDB has answered; until then it stays on its way. A
completion records what was written for the oldest command and `(ok, err)`, and nothing if none is held; a reset of the
executor gives up the commands not completed, with what was written for them.
The model's choices: the form of the lists, and that the oldest command completes (log entry 10); visibility as an input
of the edge (log entry 21); the order within the edge (log entry 22), by which a command taken at it can be written for,
its writes can become visible at it and count for the command that completes at it; and the executor's reset as an input
of the edge, its last event (log entry 23). -/
def Obligations.ExecutorWritesAreRecorded : Prop :=
  ∀ (s t : State) (e : Edge) (rest : List Edge), s.inbox = e :: rest → step s = .next t →
    let cells (ws : List ExecWrite) : List Host.Cell := ws.map (fun w => (w.addr.toNat, w.byte))
    let held : List Taken := (portSide e s s.around).executor
    let now : List Taken :=
      held.mapIdx (fun k h => ⟨h.cmd, h.wrote ++ cells (e.execWrites.filter (fun w => w.slot == k))⟩)
    let left : List Taken := if e.doneValid then now.tail else now
    let sent : List Host.Cell := s.around.pending ++ cells (e.execWrites.filter (fun w => decide (w.slot < held.length)))
    t.around.completed = s.around.completed ++
      (if e.doneValid then now.head?.toList.map (fun h => ⟨h.cmd, h.wrote, e.doneOk, e.doneErr⟩) else []) ∧
    t.around.executor = (if e.execRst then [] else left) ∧
    t.around.dropped = s.around.dropped ++ (if e.execRst then left else []) ∧
    t.around.pending = atPositions e.visible false 0 sent ∧
    ∀ a, memRead t.around.mem a =
      (((atPositions e.visible true 0 sent).reverse.find? (fun x => x.1 == a)).map Prod.snd).or
        (memRead (hostSide e s.loan s.around).mem a)

/-! ## The machine: reset -/

/-- R32: the state after reset and its ports. The mode count, the empty records and the empty surroundings are the model's own
(log entries 1 to 3, 10 and 12). -/
def Obligations.ResetStateIsIdle : Prop :=
  State.reset.phase = .idle ∧ State.reset.inReset = false ∧ State.reset.loan = none ∧
  State.reset.responses = [] ∧ State.reset.issued = [] ∧ State.reset.traced = [] ∧
  State.reset.around.executor = [] ∧ State.reset.around.dropped = [] ∧ State.reset.around.mem = [] ∧
  State.reset.around.raced = [] ∧
  ports false State.reset =
    { reqReady := true, rsp := none, cmd := none, cmdSel := some 0, doneReady := true, trc := none }

/-- R200, R201, R203: at an edge with `rst = 1` the transaction in progress is abandoned with no response, in any state;
while `rst` is 1 every valid and `req_ready` are 0 and `done_ready` is 1; commands the executor holds are not recalled:
unless one completes at this edge, it holds the same, but for an executor that is reset together with the QDB, which holds
none. The model's choices: the executor's list (log entry 10) and reset (log entry 23), that the loan ends here while a
command the executor holds keeps its own (log entry 11), and that the records of what was issued and traced stand (log
entry 9). -/
def Obligations.ResetAbandonsTransaction : Prop :=
  ∀ (s : State) (e : Edge) (rest : List Edge), s.inbox = e :: rest → e.rst = true →
    ports true s = { reqReady := false, rsp := none, cmd := none, cmdSel := none, doneReady := true, trc := none } ∧
    (e.execRst = false → e.doneValid = false →
      (aroundAfter e s).executor.map Taken.cmd = s.around.executor.map Taken.cmd) ∧
    (e.execRst = true → (aroundAfter e s).executor = []) ∧
    step s = .next { s with
      inbox := rest, inReset := true, phase := .idle, loan := none, around := aroundAfter e s }

/-- R200: the first edge with `rst = 0` leaves the QDB in the state of R32: `IDLE`, with its ports. The model's choices: that
this edge takes no request word is read from R200 and R203 (log entry 5), and the other agents' side is the model's (log
entries 10, 12 and 20 to 23). -/
def Obligations.ReleaseLeavesResetState : Prop :=
  ∀ (s : State) (e : Edge) (rest : List Edge), s.inbox = e :: rest → e.rst = false → s.inReset = true →
    ∃ t : State, step s = .next t ∧
      t = { s with inbox := rest, inReset := false, phase := .idle, loan := none, around := aroundAfter e s } ∧
      ports false t = ports false State.reset

/-! ## The whole machine -/

/-- R170 and 93_implementation_defined.md section 1: no step of the machine, from any state, ends in a fault or a refusal. -/
def Obligations.EveryStepAnswers : Prop :=
  ∀ s : State, ∃ t : State, step s = .next t

/-- R31, R206: no operation and no step changes `M`. -/
def Obligations.ModeCountNeverChanges : Prop :=
  ∀ s t : State, step s = .next t → t.modesPred = s.modesPred

/-- R21: what an op does is a function of the request and `M` (and, out of QUANT's domain, of the draws): from any two states
with the same `M` and the same number of draws (the form of a draw is log entry 3), the phase entered and the commands and records added are the same. -/
def Obligations.OpsDependOnRequestOnly : Prop :=
  ∀ (i : Instr) (s s' : State), s.modesPred = s'.modesPred → (drawsUsed i = 0 ∨ s.draws = s'.draws) →
    ∃ (t t' : State) (xs : List Issued) (rs : List TraceRec),
      exec i s = .next t ∧ exec i s' = .next t' ∧ t.phase = t'.phase ∧
      t.issued = s.issued ++ xs ∧ t'.issued = s'.issued ++ xs ∧ t.traced = s.traced ++ rs ∧ t'.traced = s'.traced ++ rs ∧
      xs.length ≤ 1 ∧ rs.length = 2 * xs.length

/-- R23, R9, R22: one clock edge, seen at transaction level, is exactly the rows of R23 for the events of that edge: the QDB has
no other step. R23 says nothing of clock edges, so which events an edge has is the model's reading (`edgeEvents`): none
but reset at the edge that releases reset (log entry 5), a completion (R28) before the packet taken at the same edge (R25, log
entry 15), and the records and the command at acceptance (log entry 9). -/
def Obligations.EdgesRefineTransactions : Prop :=
  ∀ (s t : State) (e : Edge) (rest : List Edge), s.inbox = e :: rest → step s = .next t →
    foldState t = (edgeEvents e s).foldl transactionStep (foldState s)

/-- Every step keeps the invariant, whatever the other agents do: the responses given and the commands issued are ones R68,
R69 and R171 allow, each command has its two records (R185), the phase and the loan fit (R205), and storage keeps its
canonical form (log entry 12). -/
def Obligations.EveryStepKeepsInvariant : Prop :=
  ∀ s t : State, Inv s → step s = .next t → Inv t

/-- The invariant holds after reset. -/
def Obligations.ResetMeetsInvariant : Prop := Inv State.reset

/-- R28, R202, R203: as long as the executor completes commands only after taking them and is reset together with the QDB and
not otherwise, it holds exactly the command the QDB waits for, reset or not: no completion is ever stale. The executor's
list and reset are the model's (log entries 10 and 23). -/
def Obligations.ExecutorStaysInStep : Prop :=
  ∀ (s t : State) (e : Edge) (rest : List Edge), s.inbox = e :: rest →
    (s.inReset = true → s.phase = .idle) → executorInStep s → executorKeepsDuty e s → resetTogether e →
    step s = .next t → executorInStep t

/-- R205, R51: buffers on loan stay on loan at every edge without reset until the last response word is taken, and those of a
command the executor holds until it completes, reset of the QDB or not (R201), or the executor itself is reset (R203).
The races after an edge are those before, one for each access of the host that breaks a duty with a buffer on loan, and
those of a command taken while the executor holds one whose output overlaps; no byte of such a buffer is defined from then
on. Where the host keeps its duties and the outputs are disjoint there is none.
The model's choices: what a loan is and when a reset ends it (log entries 11 and 23), which addresses a buffer has (log
entry 19), that a race lasts for ever (log entry 20), that duties are those before the edge, and when two dispatches are
concurrent (log entry 22). -/
def Obligations.LoanLastsUntilResponseTaken : Prop :=
  ∀ (s t : State) (e : Edge) (rest : List Edge), s.inbox = e :: rest → step s = .next t →
    (∀ c, Inv s → e.rst = false → s.loan = some c →
      c ∈ lent s ∧
      (t.loan = some c ∨
        (t.loan = none ∧ t.phase = .idle ∧ ∃ r, s.phase = .resp r 2 true ∧ t.responses = s.responses ++ [r]))) ∧
    (e.doneValid = false → e.execRst = false → ∀ h ∈ s.around.executor, h.cmd ∈ lent s ∧ h.cmd ∈ lent t) ∧
    (∀ x : Region, x ∈ t.around.raced ↔ x ∈ s.around.raced ∨
      (∃ acc ∈ e.hostAccesses, x.cmd ∈ lent s ∧ forbids acc x.which = true ∧
        inBuffer x.which x.cmd (accessAddr acc) = true) ∨
      (e.rst = false ∧ s.inReset = false ∧ e.cmdReady = true ∧ ∃ f, s.phase = .waitExec f (.due .command true) ∧
        ∃ h ∈ s.around.executor, outsOverlap h.cmd f.issued.cmd = true ∧
          (x = ⟨.out, h.cmd⟩ ∨ x = ⟨.out, f.issued.cmd⟩))) ∧
    (∀ x ∈ t.around.raced, ∀ a, inBuffer x.which x.cmd a = false ∨ definedByte t.around a = none) ∧
    (hostKeepsDuties e s → outsDisjoint s → t.around.raced = s.around.raced)

/-- R9, R26: from `IDLE`, a request that needs no executor, presented word by word to a host that then takes three words,
gives exactly one response, delivered, and leaves the QDB in `IDLE`. The model's choices: at each of these edges the QDB
moves on, so five steps suffice (`advance`, log entry 14; R30 fixes no latency), and the form of QUANT's draws (log entry
3). -/
def Obligations.TransactionRunsEndToEnd : Prop :=
  ∀ (s : State) (i : Instr), s.inReset = false → s.phase = .idle →
    i.opCode ≠ .dispc → i.opCode ≠ .disps →
    s.inbox = packetEdges (encode i) ++ [readyEdge, readyEdge, readyEdge] →
    ∃ (t : State) (r : Response), Host.Core.run Sys2Proof.core 5 s = .next t ∧
      verdict (numModes s) s.draws i = .respond r ∧
      t.responses = s.responses ++ [r] ∧ t.issued = s.issued ∧ t.traced = s.traced ∧ runEnded t

/-- R9, R23, R29, R47: a DISPC or a DISPS with a valid divisor, a sink that looks, an executor that takes the command,
writes and completes, and a host that takes the response: the sink has the two records, one command has been issued,
taken, and completed with what was written for it, exactly one response is delivered, after the completion, and the
QDB is in `IDLE`. The packet has 14 words for DISPC and 18 for DISPS. The model's choices: at each of these edges the QDB
moves on (log entry 14), and the lists of the executor (log entry 10). -/
def Obligations.DispatchRunsEndToEnd : Prop :=
  ∀ (s : State) (i : Instr) (relu rep biasEn : Bool) (a : DispatchArgs) (st : Strides) (op : DispatchOp) (ok : Bool)
    (err : Word) (ws : List (Addr × Byte)),
    (i = .dispc relu biasEn a ∧ op = .dispc ∨ i = .disps relu rep biasEn a st ∧ op = .disps) →
    s.inReset = false → s.phase = .idle → s.around.executor = [] → isPow2 a.divisor = true →
    s.inbox = packetEdges (encode i) ++
      [sinkEdge, sinkEdge, commandEdge, writeEdge ws, doneEdge ok err, readyEdge, readyEdge, readyEdge] →
    ∃ (t : State) (x : Issued) (records : List TraceRec),
      Host.Core.run Sys2Proof.core (if op = .dispc then 22 else 26) s = .next t ∧
      verdict (numModes s) s.draws i = .forward op records x ∧
      t.traced = s.traced ++ records ∧ t.around.sink = s.around.sink ++ records ∧ t.issued = s.issued ++ [x] ∧
      t.around.executor = [] ∧
      t.around.completed =
        s.around.completed ++ [⟨x.cmd, ws.map (fun w => (w.1.toNat, w.2)), ok, err⟩] ∧
      t.loan = none ∧
      t.responses = s.responses ++
        [⟨if ok then .ok else .executorFailure, dispatchOpCode op, if ok then 0 else err, 0⟩] ∧
      runEnded t
end

