-- ==== Sys2Proof/Laws/State.lean ====
section
/-! SUPPORT. The small lemmas of the state updates in Machine/Ops.lean: one per field per update, so that no later proof
unfolds a record update. -/

namespace Sys2Proof.Machine

variable (s : State)

@[simp] theorem respond_modesPred (op : BitVec 4) (st : Status) (r1 r2 : Word) : (respond op st r1 r2 s).modesPred = s.modesPred := rfl
@[simp] theorem respond_inReset (op : BitVec 4) (st : Status) (r1 r2 : Word) : (respond op st r1 r2 s).inReset = s.inReset := rfl
@[simp] theorem respond_phase (op : BitVec 4) (st : Status) (r1 r2 : Word) : (respond op st r1 r2 s).phase = .resp ⟨st, op, r1, r2⟩ 0 false := rfl
@[simp] theorem respond_loan (op : BitVec 4) (st : Status) (r1 r2 : Word) : (respond op st r1 r2 s).loan = s.loan := rfl
@[simp] theorem respond_responses (op : BitVec 4) (st : Status) (r1 r2 : Word) : (respond op st r1 r2 s).responses = s.responses := rfl
@[simp] theorem respond_issued (op : BitVec 4) (st : Status) (r1 r2 : Word) : (respond op st r1 r2 s).issued = s.issued := rfl
@[simp] theorem respond_traced (op : BitVec 4) (st : Status) (r1 r2 : Word) : (respond op st r1 r2 s).traced = s.traced := rfl
@[simp] theorem respond_around (op : BitVec 4) (st : Status) (r1 r2 : Word) : (respond op st r1 r2 s).around = s.around := rfl
@[simp] theorem respond_draws (op : BitVec 4) (st : Status) (r1 r2 : Word) : (respond op st r1 r2 s).draws = s.draws := rfl
@[simp] theorem respond_inbox (op : BitVec 4) (st : Status) (r1 r2 : Word) : (respond op st r1 r2 s).inbox = s.inbox := rfl

@[simp] theorem raiseStatus_modesPred (op : BitVec 4) (st : Status) (r1 : Word) : (raiseStatus op st r1 s).modesPred = s.modesPred := rfl
@[simp] theorem raiseStatus_inReset (op : BitVec 4) (st : Status) (r1 : Word) : (raiseStatus op st r1 s).inReset = s.inReset := rfl
@[simp] theorem raiseStatus_phase (op : BitVec 4) (st : Status) (r1 : Word) : (raiseStatus op st r1 s).phase = .resp ⟨st, op, r1, 0⟩ 0 false := rfl
@[simp] theorem raiseStatus_loan (op : BitVec 4) (st : Status) (r1 : Word) : (raiseStatus op st r1 s).loan = s.loan := rfl
@[simp] theorem raiseStatus_responses (op : BitVec 4) (st : Status) (r1 : Word) : (raiseStatus op st r1 s).responses = s.responses := rfl
@[simp] theorem raiseStatus_issued (op : BitVec 4) (st : Status) (r1 : Word) : (raiseStatus op st r1 s).issued = s.issued := rfl
@[simp] theorem raiseStatus_traced (op : BitVec 4) (st : Status) (r1 : Word) : (raiseStatus op st r1 s).traced = s.traced := rfl
@[simp] theorem raiseStatus_around (op : BitVec 4) (st : Status) (r1 : Word) : (raiseStatus op st r1 s).around = s.around := rfl
@[simp] theorem raiseStatus_draws (op : BitVec 4) (st : Status) (r1 : Word) : (raiseStatus op st r1 s).draws = s.draws := rfl
@[simp] theorem raiseStatus_inbox (op : BitVec 4) (st : Status) (r1 : Word) : (raiseStatus op st r1 s).inbox = s.inbox := rfl

@[simp] theorem emitTrace_modesPred (x : TraceRec) : (emitTrace x s).modesPred = s.modesPred := rfl
@[simp] theorem emitTrace_inReset (x : TraceRec) : (emitTrace x s).inReset = s.inReset := rfl
@[simp] theorem emitTrace_phase (x : TraceRec) : (emitTrace x s).phase = s.phase := rfl
@[simp] theorem emitTrace_loan (x : TraceRec) : (emitTrace x s).loan = s.loan := rfl
@[simp] theorem emitTrace_responses (x : TraceRec) : (emitTrace x s).responses = s.responses := rfl
@[simp] theorem emitTrace_issued (x : TraceRec) : (emitTrace x s).issued = s.issued := rfl
@[simp] theorem emitTrace_traced (x : TraceRec) : (emitTrace x s).traced = s.traced ++ [x] := rfl
@[simp] theorem emitTrace_around (x : TraceRec) : (emitTrace x s).around = s.around := rfl
@[simp] theorem emitTrace_draws (x : TraceRec) : (emitTrace x s).draws = s.draws := rfl
@[simp] theorem emitTrace_inbox (x : TraceRec) : (emitTrace x s).inbox = s.inbox := rfl

@[simp] theorem issue_modesPred (f : Flight) : (issue f s).modesPred = s.modesPred := rfl
@[simp] theorem issue_inReset (f : Flight) : (issue f s).inReset = s.inReset := rfl
@[simp] theorem issue_phase (f : Flight) : (issue f s).phase = .waitExec f (.due .backend false) := rfl
@[simp] theorem issue_loan (f : Flight) : (issue f s).loan = some f.issued.cmd := rfl
@[simp] theorem issue_responses (f : Flight) : (issue f s).responses = s.responses := rfl
@[simp] theorem issue_issued (f : Flight) : (issue f s).issued = s.issued ++ [f.issued] := rfl
@[simp] theorem issue_traced (f : Flight) : (issue f s).traced = s.traced := rfl
@[simp] theorem issue_around (f : Flight) : (issue f s).around = s.around := rfl
@[simp] theorem issue_draws (f : Flight) : (issue f s).draws = s.draws := rfl
@[simp] theorem issue_inbox (f : Flight) : (issue f s).inbox = s.inbox := rfl

@[simp] theorem afterDraw_modesPred : (afterDraw s).modesPred = s.modesPred := rfl
@[simp] theorem afterDraw_inReset : (afterDraw s).inReset = s.inReset := rfl
@[simp] theorem afterDraw_phase : (afterDraw s).phase = s.phase := rfl
@[simp] theorem afterDraw_loan : (afterDraw s).loan = s.loan := rfl
@[simp] theorem afterDraw_responses : (afterDraw s).responses = s.responses := rfl
@[simp] theorem afterDraw_issued : (afterDraw s).issued = s.issued := rfl
@[simp] theorem afterDraw_traced : (afterDraw s).traced = s.traced := rfl
@[simp] theorem afterDraw_around : (afterDraw s).around = s.around := rfl
@[simp] theorem afterDraw_draws : (afterDraw s).draws = s.draws + 1 := rfl
@[simp] theorem afterDraw_inbox : (afterDraw s).inbox = s.inbox := rfl

@[simp] theorem deliver_modesPred (r : Response) : (deliver r s).modesPred = s.modesPred := rfl
@[simp] theorem deliver_inReset (r : Response) : (deliver r s).inReset = s.inReset := rfl
@[simp] theorem deliver_phase (r : Response) : (deliver r s).phase = .idle := rfl
@[simp] theorem deliver_loan (r : Response) : (deliver r s).loan = none := rfl
@[simp] theorem deliver_responses (r : Response) : (deliver r s).responses = s.responses ++ [r] := rfl
@[simp] theorem deliver_issued (r : Response) : (deliver r s).issued = s.issued := rfl
@[simp] theorem deliver_traced (r : Response) : (deliver r s).traced = s.traced := rfl
@[simp] theorem deliver_around (r : Response) : (deliver r s).around = s.around := rfl
@[simp] theorem deliver_draws (r : Response) : (deliver r s).draws = s.draws := rfl
@[simp] theorem deliver_inbox (r : Response) : (deliver r s).inbox = s.inbox := rfl

@[simp] theorem abandon_modesPred (b : Bool) : (abandon b s).modesPred = s.modesPred := rfl
@[simp] theorem abandon_inReset (b : Bool) : (abandon b s).inReset = b := rfl
@[simp] theorem abandon_phase (b : Bool) : (abandon b s).phase = .idle := rfl
@[simp] theorem abandon_loan (b : Bool) : (abandon b s).loan = none := rfl
@[simp] theorem abandon_responses (b : Bool) : (abandon b s).responses = s.responses := rfl
@[simp] theorem abandon_issued (b : Bool) : (abandon b s).issued = s.issued := rfl
@[simp] theorem abandon_traced (b : Bool) : (abandon b s).traced = s.traced := rfl
@[simp] theorem abandon_around (b : Bool) : (abandon b s).around = s.around := rfl
@[simp] theorem abandon_draws (b : Bool) : (abandon b s).draws = s.draws := rfl
@[simp] theorem abandon_inbox (b : Bool) : (abandon b s).inbox = s.inbox := rfl

@[simp] theorem numModes_respond (op : BitVec 4) (st : Status) (r1 r2 : Word) : numModes (respond op st r1 r2 s) = numModes s := rfl
@[simp] theorem numModes_emitTrace (x : TraceRec) : numModes (emitTrace x s) = numModes s := rfl
@[simp] theorem numModes_issue (f : Flight) : numModes (issue f s) = numModes s := rfl

/-- `M` is between 1 and 256 (R7). -/
theorem numModes_bounds : 1 ≤ numModes s ∧ numModes s ≤ 256 := ⟨Nat.succ_pos _, s.modesPred.isLt⟩

end Sys2Proof.Machine
end

