-- ==== Sys2Proof/Laws/Buffers.lean ====
section
/-! SUPPORT. Storage reads back what was written and keeps its canonical form; what each action of host and executor on the
buffers can do, said once. -/

namespace Sys2Proof.Machine

/-! ### Storage -/

/-- A read after a write: the byte written at its address, what was there elsewhere. -/
theorem memRead_memWrite (m : List Host.Cell) (a x : Nat) (b : Byte) :
    memRead (memWrite m a b) x = if x = a then some b else memRead m x := by
  induction m with
  | nil =>
    by_cases h : a = x
    · simp [memWrite, memRead, h]
    · simp [memWrite, memRead, h, Ne.symm h]
  | cons c m ih =>
    obtain ⟨y, d⟩ := c
    simp only [memWrite]
    split
    · by_cases h : a = x
      · simp [memRead, h]
      · simp [memRead, h, Ne.symm h]
    · split
      · by_cases h : x = a <;> simp_all [memRead, eq_comm]
      · by_cases h : y = x <;> simp_all [memRead]

/-- Every entry after a write is the one written or was there. -/
theorem mem_memWrite {m : List Host.Cell} {a : Nat} {b : Byte} {c : Host.Cell} (h : c ∈ memWrite m a b) :
    c = (a, b) ∨ c ∈ m := by
  induction m with
  | nil => exact .inl (by simpa [memWrite] using h)
  | cons d m ih =>
    obtain ⟨y, d⟩ := d
    simp only [memWrite] at h
    split at h
    · simpa using h
    · split at h
      · simp only [List.mem_cons] at h ⊢
        tauto
      · simp only [List.mem_cons] at h ⊢
        tauto

/-- A write keeps the canonical form. -/
theorem memWrite_wf {m : List Host.Cell} (a : Nat) (b : Byte) (ha : a < 2 ^ 64) (h : Memory.wf m) :
    Memory.wf (memWrite m a b) := by
  refine ⟨?_, fun c hc => ?_⟩
  · induction m with
    | nil => simp [memWrite]
    | cons c m ih =>
      obtain ⟨y, d⟩ := c
      obtain ⟨⟨hy, hp⟩, hb⟩ := And.imp_left List.pairwise_cons.1 h
      have ih := ih ⟨hp, fun c hc => hb c (by simp [hc])⟩
      simp only [memWrite]
      split
      · rename_i hlt
        refine List.pairwise_cons.2 ⟨fun c hc => ?_, h.1⟩
        rcases List.mem_cons.1 hc with rfl | hc
        · exact hlt
        · exact lt_trans hlt (hy c hc)
      · split
        · rename_i heq
          exact List.pairwise_cons.2 ⟨fun c hc => heq ▸ hy c hc, hp⟩
        · refine List.pairwise_cons.2 ⟨fun c hc => ?_, ih⟩
          rcases mem_memWrite hc with rfl | hc
          · simp only
            omega
          · exact hy c hc
  · rcases mem_memWrite hc with rfl | hc
    · exact ha
    · exact h.2 c hc

/-- A read after forgetting an address. -/
theorem memRead_memErase (m : List Host.Cell) (a x : Nat) :
    memRead (memErase m a) x = if x = a then none else memRead m x := by
  induction m with
  | nil => simp [memErase, memRead]
  | cons c m ih =>
    obtain ⟨y, d⟩ := c
    by_cases hy : y = a
    · by_cases h : x = a
      · simp_all [memErase]
      · have : ¬ a = x := fun e => h e.symm
        simp_all [memErase, memRead]
    · by_cases h : x = a
      · simp_all [memErase, memRead]
      · by_cases hx : y = x <;> simp_all [memErase, memRead]

/-- Forgetting an address keeps the canonical form. -/
theorem memErase_wf {m : List Host.Cell} (a : Nat) (h : Memory.wf m) : Memory.wf (memErase m a) :=
  ⟨h.1.filter _, fun c hc => h.2 c (List.mem_filter.1 hc).1⟩

/-- Several writes keep the canonical form. -/
theorem memWrites_wf {m xs : List Host.Cell} (hx : ∀ x ∈ xs, x.1 < 2 ^ 64) (h : Memory.wf m) :
    Memory.wf (xs.foldl (fun m x => memWrite m x.1 x.2) m) := by
  induction xs generalizing m with
  | nil => exact h
  | cons x xs ih =>
    exact ih (fun y hy => hx y (by simp [hy])) (memWrite_wf x.1 x.2 (hx x (by simp)) h)

/-! ### Positions -/

theorem mem_atPositions {ks : List Nat} {want : Bool} {n : Nat} {l : List Host.Cell} {x : Host.Cell}
    (h : x ∈ atPositions ks want n l) : x ∈ l := by
  induction l generalizing n with
  | nil => simp [atPositions] at h
  | cons y l ih =>
    simp only [atPositions] at h
    split at h
    · rcases List.mem_cons.1 h with rfl | h
      · simp
      · exact List.mem_cons_of_mem _ (ih h)
    · exact List.mem_cons_of_mem _ (ih h)

@[simp] theorem atPositions_none_true (n : Nat) (l : List Host.Cell) : atPositions [] true n l = [] := by
  induction l generalizing n with
  | nil => rfl
  | cons y l ih => simp [atPositions, ih]

@[simp] theorem atPositions_none_false (n : Nat) (l : List Host.Cell) : atPositions [] false n l = l := by
  induction l generalizing n with
  | nil => rfl
  | cons y l ih => simp [atPositions, ih]

/-- Nothing becomes visible where no position is named. -/
theorem visibleSide_none {e : Edge} {r : Around} (h : e.visible = []) : visibleSide e r = r := by
  simp [visibleSide, h]

/-! ### Taking a command, field by field -/

@[simp] theorem takeCommand_executor (c : ExecCmd) (r : Around) : (takeCommand c r).executor = r.executor ++ [⟨c, []⟩] := rfl
@[simp] theorem takeCommand_completed (c : ExecCmd) (r : Around) : (takeCommand c r).completed = r.completed := rfl
@[simp] theorem takeCommand_dropped (c : ExecCmd) (r : Around) : (takeCommand c r).dropped = r.dropped := rfl
@[simp] theorem takeCommand_pending (c : ExecCmd) (r : Around) : (takeCommand c r).pending = r.pending := rfl
@[simp] theorem takeCommand_mem (c : ExecCmd) (r : Around) : (takeCommand c r).mem = r.mem := rfl
@[simp] theorem takeCommand_raced (c : ExecCmd) (r : Around) : (takeCommand c r).raced = r.raced ++ clashesWith r.executor c := rfl
@[simp] theorem takeCommand_hostReads (c : ExecCmd) (r : Around) : (takeCommand c r).hostReads = r.hostReads := rfl
@[simp] theorem takeCommand_freeReads (c : ExecCmd) (r : Around) : (takeCommand c r).freeReads = r.freeReads := rfl
@[simp] theorem takeCommand_sink (c : ExecCmd) (r : Around) : (takeCommand c r).sink = r.sink := rfl

/-- Which outputs race when a command is taken: those of it and of a held one that overlaps. -/
theorem mem_clashesWith {held : List Taken} {c : ExecCmd} {x : Region} :
    x ∈ clashesWith held c ↔
      ∃ h ∈ held, outsOverlap h.cmd c = true ∧ (x = ⟨.out, h.cmd⟩ ∨ x = ⟨.out, c⟩) := by
  simp only [clashesWith, List.mem_flatMap]
  constructor
  · rintro ⟨h, hh, hx⟩
    split at hx
    · rename_i ho
      exact ⟨h, hh, ho, by simpa using hx⟩
    · simp at hx
  · rintro ⟨h, hh, ho, hx⟩
    exact ⟨h, hh, by simpa [ho] using hx⟩

/-! ### What an action leaves alone -/

/-- An access of the host leaves the executor and the sink alone, and takes no race back. -/
theorem hostAccess_frame (cs : List ExecCmd) (r : Around) (acc : HostAccess) :
    (hostAccess cs r acc).executor = r.executor ∧ (hostAccess cs r acc).completed = r.completed ∧
    (hostAccess cs r acc).dropped = r.dropped ∧ (hostAccess cs r acc).pending = r.pending ∧ (hostAccess cs r acc).sink = r.sink ∧
    (hostAccess cs r acc).raced = r.raced ++ brokenBy cs acc := by
  cases acc with
  | read a => simp only [hostAccess, plainAccess]; split <;> simp
  | write a b => simp [hostAccess, plainAccess]
  | free a => simp [hostAccess, plainAccess]

/-- An access of the host keeps storage canonical. -/
theorem hostAccess_wf {cs : List ExecCmd} {r : Around} (acc : HostAccess) (h : Memory.wf r.mem) :
    Memory.wf (hostAccess cs r acc).mem := by
  cases acc with
  | read a => simp only [hostAccess, plainAccess]; split <;> exact h
  | write a b => exact memWrite_wf _ _ a.isLt h
  | free a => exact memErase_wf _ h

/-- The host's accesses at an edge: frame, races and canonical form. -/
theorem hostSide_frame (e : Edge) (loan : Option ExecCmd) (r : Around) :
    (hostSide e loan r).executor = r.executor ∧ (hostSide e loan r).completed = r.completed ∧
    (hostSide e loan r).dropped = r.dropped ∧ (hostSide e loan r).pending = r.pending ∧ (hostSide e loan r).sink = r.sink ∧
    (hostSide e loan r).raced = r.raced ++ e.hostAccesses.flatMap (brokenBy (lentBy loan r.executor)) := by
  unfold hostSide
  generalize lentBy loan r.executor = cs
  induction e.hostAccesses generalizing r with
  | nil => simp
  | cons acc l ih =>
    obtain ⟨h1, h2, h3, h4, h5, h6⟩ := hostAccess_frame cs r acc
    obtain ⟨i1, i2, i3, i4, i5, i6⟩ := ih (hostAccess cs r acc)
    simp [i1, i2, i3, i4, i5, i6, h1, h2, h3, h4, h5, h6]

theorem hostSide_wf {e : Edge} {loan : Option ExecCmd} {r : Around} (h : Memory.wf r.mem) :
    Memory.wf (hostSide e loan r).mem := by
  unfold hostSide
  generalize lentBy loan r.executor = cs
  induction e.hostAccesses generalizing r with
  | nil => exact h
  | cons acc l ih => exact ih (hostAccess_wf acc h)

/-- Which buffers an access makes race: those on loan that have its address, where it breaks a duty. -/
theorem mem_brokenBy {cs : List ExecCmd} {acc : HostAccess} {x : Region} :
    x ∈ brokenBy cs acc ↔ x.cmd ∈ cs ∧ forbids acc x.which = true ∧ inBuffer x.which x.cmd (accessAddr acc) = true := by
  obtain ⟨k, c⟩ := x
  simp only [brokenBy, List.mem_flatMap, List.mem_map, List.mem_filter, Bool.and_eq_true, Region.mk.injEq]
  constructor
  · rintro ⟨d, hd, j, ⟨-, hj⟩, rfl, rfl⟩
    exact ⟨hd, hj⟩
  · rintro ⟨hc, hk⟩
    exact ⟨c, hc, k, ⟨by cases k <;> simp, hk⟩, rfl, rfl⟩

/-- In a race no byte is defined. -/
theorem definedByte_of_raced {r : Around} {x : Region} {a : Addr} (hx : x ∈ r.raced)
    (ha : inBuffer x.which x.cmd a = true) : definedByte r a = none := by
  have h : inRace r a = true := List.any_eq_true.2 ⟨x, hx, ha⟩
  simp [definedByte, h]

/-- A write of the executor changes what it has written and what is not yet visible, and keeps the commands it holds. -/
theorem executorWrite_frame (r : Around) (w : ExecWrite) :
    (executorWrite r w).completed = r.completed ∧ (executorWrite r w).dropped = r.dropped ∧
    (executorWrite r w).mem = r.mem ∧ (executorWrite r w).raced = r.raced ∧ (executorWrite r w).hostReads = r.hostReads ∧
    (executorWrite r w).freeReads = r.freeReads ∧ (executorWrite r w).sink = r.sink ∧
    (executorWrite r w).executor.map Taken.cmd = r.executor.map Taken.cmd ∧
    (executorWrite r w).pending =
      r.pending ++ (if w.slot < r.executor.length then [(w.addr.toNat, w.byte)] else []) := by
  unfold executorWrite
  split
  · refine ⟨rfl, rfl, rfl, rfl, rfl, rfl, rfl, ?_, rfl⟩
    apply List.ext_getElem?
    intro i
    simp only [List.getElem?_map, List.getElem?_modify]
    by_cases h : w.slot = i
    · cases r.executor[i]? <;> simp [h]
    · cases r.executor[i]? <;> simp [h]
  · simp

/-- The executor's writes at an edge. -/
theorem writeSide_frame (e : Edge) (r : Around) :
    (writeSide e r).completed = r.completed ∧ (writeSide e r).dropped = r.dropped ∧ (writeSide e r).mem = r.mem ∧
    (writeSide e r).raced = r.raced ∧
    (writeSide e r).hostReads = r.hostReads ∧ (writeSide e r).freeReads = r.freeReads ∧ (writeSide e r).sink = r.sink ∧
    (writeSide e r).executor.map Taken.cmd = r.executor.map Taken.cmd ∧
    (writeSide e r).pending = r.pending ++
      (e.execWrites.filter (fun w => w.slot < r.executor.length)).map (fun w => (w.addr.toNat, w.byte)) := by
  unfold writeSide
  induction e.execWrites generalizing r with
  | nil => simp
  | cons w l ih =>
    obtain ⟨h1, h2, h3, h4, h5, h6, h7, h8, h9⟩ := executorWrite_frame r w
    obtain ⟨i1, i2, i3, i4, i5, i6, i7, i8, i9⟩ := ih (executorWrite r w)
    have hl : (executorWrite r w).executor.length = r.executor.length := by
      simpa using congrArg List.length h8
    refine ⟨i1.trans h1, i2.trans h2, i3.trans h3, i4.trans h4, i5.trans h5, i6.trans h6, i7.trans h7, i8.trans h8, ?_⟩
    rw [List.foldl_cons, i9, h9, hl]
    by_cases hw : w.slot < r.executor.length <;> simp [hw]

/-- A completion reported: the oldest command held, if any, goes from the executor to the completed ones. -/
theorem completionSide_eq (e : Edge) (r : Around) :
    completionSide e r = { r with
      executor := if e.doneValid then r.executor.tail else r.executor
      completed := r.completed ++ (if e.doneValid then
        r.executor.head?.toList.map (fun h => ⟨h.cmd, h.wrote, e.doneOk, e.doneErr⟩) else []) } := by
  obtain ⟨x, _, _, _, _, _, _, _, _⟩ := r
  cases hd : e.doneValid <;> cases x <;> simp [completionSide, hd]

/-- A reset of the executor: what it held goes to the commands given up. -/
theorem resetSide_eq (e : Edge) (r : Around) :
    resetSide e r = { r with
      executor := if e.execRst then [] else r.executor
      dropped := r.dropped ++ (if e.execRst then r.executor else []) } := by
  cases hr : e.execRst <;> simp [resetSide, hr]

end Sys2Proof.Machine
end

