-- ==== Sys2Proof/Laws/Ops.lean ====
section
/-! SUPPORT. What each shared operation can do, said once: a proof cites these and does not unfold the operations. -/

namespace Sys2Proof.Machine

/-! ### The dispatch sequence (R139) -/

/-- What DISPATCH answers: the forwarded dispatch, or INVALID_ARGUMENT and nothing else. -/
theorem dispatch_cases (op : DispatchOp) (relu rep biasEn : Bool) (a : DispatchArgs) (st : Strides) (s : State) :
    (isPow2 a.divisor = true ∧ ∃ f : Flight, f = ⟨op, a.mode, buildIssued (numModes s) relu rep biasEn a st⟩ ∧
      dispatch op relu rep biasEn a st s = .next (issue f (emitTrace (dimsRecord f) (emitTrace (backendRecord f) s)))) ∨
    (isPow2 a.divisor = false ∧
      dispatch op relu rep biasEn a st s = .next (raiseStatus (dispatchOpCode op) .invalidArgument 0 s)) := by
  cases h : isPow2 a.divisor
  · exact .inr ⟨rfl, by simp [dispatch, h]⟩
  · exact .inl ⟨rfl, _, rfl, by simp [dispatch, h]⟩

/-- A completion ends a dispatch with a response, whatever it says (R23). -/
theorem completeDispatch_eq (f : Flight) (ok : Bool) (err : Word) (s : State) :
    completeDispatch f ok err s =
      respond (dispatchOpCode f.op) (if ok then .ok else .executorFailure) (if ok then 0 else err) 0 s := by
  cases ok <;> rfl

/-- A packet is decoded and its op runs, or ILLEGAL_OPERATION is answered (R23). -/
theorem acceptPacket_cases (p : List Word) (s : State) :
    (∃ i, decode p = .ok i ∧ acceptPacket p s = exec i s) ∨
    (∃ x, decode p = .error x ∧ acceptPacket p s = .next (raiseStatus (echoedOp p) .illegalOperation 0 s)) := by
  cases h : decode p with
  | error x => exact .inr ⟨x, rfl, by simp [acceptPacket, h]⟩
  | ok i => exact .inl ⟨i, rfl, by simp [acceptPacket, h]⟩

/-! ### The end of an edge -/

/-- Moving on changes what the ports show, nothing else. -/
theorem moveOn_next (e : Edge) (s : State) :
    moveOn e (.next s) = .next { s with phase := if e.advance then showNext s.phase else s.phase } := by
  cases h : e.advance <;> simp [moveOn, h]

/-- Moving on stays within the transaction-level phase. -/
theorem showNext_keeps (p : Phase) :
    (∀ r k b, p = .resp r k b → showNext p = .resp r k true) ∧
    (∀ ws, p = .recv ws → showNext p = .recv ws) ∧ (p = .idle → showNext p = .idle) := by
  refine ⟨?_, ?_, ?_⟩ <;> intros <;> subst_vars <;> rfl

end Sys2Proof.Machine
end

