-- ==== Sys2Proof/Laws/PerInstr.lean ====
section
/-! SUPPORT. Facts about every instruction as syntax, one lemma per constructor. The family Encoding: what the encoder
gives is a well-formed packet by the op map R62. -/

namespace Sys2Proof.Laws.Encoding

/-- The encoder's packet is accepted by a row of R62. -/
def Statement (i : Instr) : Prop := packetWellFormed (encode i) = true

theorem quant (b : Word) : Statement (.quant b) := by
  simp [Statement, packetWellFormed, encodingRows, EncodingRow.accepts, EncodingRow.headerOk, EncodingRow.lengthOk,
    EncodingRow.operandOk, encode, headerWord, opCodeBits, flagAt]

theorem qexp (b : Word) : Statement (.qexp b) := by
  simp [Statement, packetWellFormed, encodingRows, EncodingRow.accepts, EncodingRow.headerOk, EncodingRow.lengthOk,
    EncodingRow.operandOk, encode, headerWord, opCodeBits, flagAt]

theorem qnorm (b : Word) : Statement (.qnorm b) := by
  simp [Statement, packetWellFormed, encodingRows, EncodingRow.accepts, EncodingRow.headerOk, EncodingRow.lengthOk,
    EncodingRow.operandOk, encode, headerWord, opCodeBits, flagAt]

/-- The zero-extended exponent has no reserved bit. -/
theorem exponent_reserved (e : BitVec 8) : e.setWidth 32 &&& 0xFFFFFF00#32 = 0#32 := by
  revert e
  decide

theorem qshift (e : BitVec 8) : Statement (.qshift e) := by
  have h := exponent_reserved e
  simp [Statement, packetWellFormed, encodingRows, EncodingRow.accepts, EncodingRow.headerOk, EncodingRow.lengthOk,
    EncodingRow.operandOk, encode, headerWord, opCodeBits, flagAt, h]

theorem dshift (d : Word) : Statement (.dshift d) := by
  simp [Statement, packetWellFormed, encodingRows, EncodingRow.accepts, EncodingRow.headerOk, EncodingRow.lengthOk,
    EncodingRow.operandOk, encode, headerWord, opCodeBits, flagAt]

theorem mrot (m : Word) : Statement (.mrot m) := by
  simp [Statement, packetWellFormed, encodingRows, EncodingRow.accepts, EncodingRow.headerOk, EncodingRow.lengthOk,
    EncodingRow.operandOk, encode, headerWord, opCodeBits, flagAt]

theorem munrot (i : Word) : Statement (.munrot i) := by
  simp [Statement, packetWellFormed, encodingRows, EncodingRow.accepts, EncodingRow.headerOk, EncodingRow.lengthOk,
    EncodingRow.operandOk, encode, headerWord, opCodeBits, flagAt]

theorem dispc (relu biasEn : Bool) (a : DispatchArgs) : Statement (.dispc relu biasEn a) := by
  cases relu <;> cases biasEn <;>
  simp [Statement, packetWellFormed, encodingRows, EncodingRow.accepts, EncodingRow.headerOk, EncodingRow.lengthOk,
    EncodingRow.operandOk, encode, headerWord, opCodeBits, flagAt, argWords]

theorem disps (relu rep biasEn : Bool) (a : DispatchArgs) (st : Strides) : Statement (.disps relu rep biasEn a st) := by
  cases relu <;> cases rep <;> cases biasEn <;>
  simp [Statement, packetWellFormed, encodingRows, EncodingRow.accepts, EncodingRow.headerOk, EncodingRow.lengthOk,
    EncodingRow.operandOk, encode, headerWord, opCodeBits, flagAt, argWords, strideWords]

end Sys2Proof.Laws.Encoding
end

