-- ==== Sys2Proof/Laws/Step.lean ====
section
/-! SUPPORT. What a step can do, said once: the edge it takes, the three kinds of edge, the edge at which a request word
is taken, and one step of a run. -/

namespace Sys2Proof.Machine

/-- A step takes the next scheduled edge. -/
theorem step_of_inbox {s : State} {e : Edge} {rest : List Edge} (h : s.inbox = e :: rest) :
    step s = clockEdge e { s with inbox := rest } := by
  simp [step, clockStep, h]

/-- With no edge scheduled, a step is a quiet edge. -/
theorem step_of_empty {s : State} (h : s.inbox = []) : step s = clockEdge quietEdge s := by
  simp [step, clockStep, h]

/-- An edge with `rst = 1` (R201). -/
theorem clockEdge_reset {e : Edge} (s : State) (h : e.rst = true) :
    clockEdge e s = .next (abandon true { s with around := aroundAfter e s }) := by
  simp [clockEdge, h]

/-- The edge that releases reset (R200). -/
theorem clockEdge_release {e : Edge} {s : State} (h : e.rst = false) (hs : s.inReset = true) :
    clockEdge e s = .next (abandon false { s with around := aroundAfter e s }) := by
  simp [clockEdge, h, hs]

/-- Any other edge: the other agents' sides, the phase's transfers, and the QDB's moving on. -/
theorem clockEdge_running {e : Edge} {s : State} (h : e.rst = false) (hs : s.inReset = false) :
    clockEdge e s = moveOn e (phaseEdge e { s with around := aroundAfter e s }) := by
  simp [clockEdge, h, hs]

/-- What the other agents do does not depend on the edges still to come. -/
@[simp] theorem aroundAfter_inbox (e : Edge) (s : State) (l : List Edge) :
    aroundAfter e { s with inbox := l } = aroundAfter e s := rfl

/-- A step at an edge with `rst = 1`. -/
theorem step_reset {s : State} {e : Edge} {rest : List Edge} (h : s.inbox = e :: rest) (hr : e.rst = true) :
    step s = .next (abandon true { s with inbox := rest, around := aroundAfter e s }) := by
  rw [step_of_inbox h, clockEdge_reset _ hr, aroundAfter_inbox]

/-- A step at the edge that releases reset. -/
theorem step_release {s : State} {e : Edge} {rest : List Edge} (h : s.inbox = e :: rest) (hr : e.rst = false)
    (hs : s.inReset = true) : step s = .next (abandon false { s with inbox := rest, around := aroundAfter e s }) := by
  rw [step_of_inbox h, clockEdge_release hr (by exact hs), aroundAfter_inbox]

/-- A step at any other edge: the phase's transfers on the state in which the other agents have acted. -/
theorem step_running {s : State} {e : Edge} {rest : List Edge} (h : s.inbox = e :: rest) (hr : e.rst = false)
    (hs : s.inReset = false) :
    step s = moveOn e (phaseEdge e { s with inbox := rest, around := aroundAfter e s }) := by
  rw [step_of_inbox h, clockEdge_running hr (by exact hs), aroundAfter_inbox]

/-- The other agents do nothing at an edge that has no input for them and presents them nothing. -/
theorem aroundAfter_idle {e : Edge} {s : State} (ht : traceOnPort s.phase = none) (hc : commandOnPort s.phase = none)
    (ha : e.hostAccesses = []) (hw : e.execWrites = []) (hv : e.visible = []) (hd : e.doneValid = false)
    (hx : e.execRst = false) :
    aroundAfter e s = s.around := by
  have hp : portSide e s s.around = s.around := by
    simp [portSide, sinkSide, commandSide, ht, hc]
  simp [aroundAfter, hostSide, ha, hp, writeSide, hw, visibleSide_none hv, completionSide, hd, resetSide, hx]

/-- What sink and executor take from the ports: the executor's list grows, races are only added. -/
theorem portSide_frame (e : Edge) (s : State) (r : Around) :
    ∃ x l k, portSide e s r = { r with executor := x, raced := r.raced ++ l, sink := k } := by
  have hs : ∀ p, ∃ k, sinkSide e p r = { r with sink := k } := by
    intro p
    unfold sinkSide
    split
    · split
      · exact ⟨_, rfl⟩
      · exact ⟨r.sink, rfl⟩
    · exact ⟨r.sink, rfl⟩
  unfold portSide
  split
  · exact ⟨r.executor, [], r.sink, by simp⟩
  · obtain ⟨k, hk⟩ := hs s.phase
    rw [hk]
    unfold commandSide
    split
    · split
      · exact ⟨_, _, k, rfl⟩
      · exact ⟨r.executor, [], k, by simp⟩
    · exact ⟨r.executor, [], k, by simp⟩

/-- The races after an edge: those before, those of the host's accesses, and those of a command taken. -/
theorem aroundAfter_raced (e : Edge) (s : State) :
    ∃ l, (aroundAfter e s).raced =
      s.around.raced ++ e.hostAccesses.flatMap (brokenBy (lentBy s.loan s.around.executor)) ++ l := by
  obtain ⟨-, -, -, -, -, h⟩ := hostSide_frame e s.loan s.around
  obtain ⟨x, l, k, hp⟩ := portSide_frame e s (hostSide e s.loan s.around)
  obtain ⟨-, -, -, hw, -⟩ := writeSide_frame e (portSide e s (hostSide e s.loan s.around))
  refine ⟨l, ?_⟩
  rw [aroundAfter, resetSide_eq, completionSide_eq, visibleSide, hw, hp, h]

/-- Storage keeps its canonical form at every edge, whatever the other agents do. -/
theorem aroundAfter_wf (e : Edge) {s : State} (hm : Memory.wf s.around.mem) (hp : ∀ x ∈ s.around.pending, x.1 < 2 ^ 64) :
    Memory.wf (aroundAfter e s).mem ∧ ∀ x ∈ (aroundAfter e s).pending, x.1 < 2 ^ 64 := by
  obtain ⟨x, l, k, hq⟩ := portSide_frame e s (hostSide e s.loan s.around)
  obtain ⟨-, -, h3, -, -, -, -, -, h9⟩ := writeSide_frame e (portSide e s (hostSide e s.loan s.around))
  obtain ⟨-, -, -, i4, -, -⟩ := hostSide_frame e s.loan s.around
  have hw : ∀ z ∈ (writeSide e (portSide e s (hostSide e s.loan s.around))).pending, z.1 < 2 ^ 64 := by
    intro z hz
    rw [h9, hq] at hz
    rcases List.mem_append.1 hz with hz | hz
    · exact hp z (by simpa [i4] using hz)
    · obtain ⟨w, -, rfl⟩ := List.mem_map.1 hz
      exact w.addr.isLt
  rw [aroundAfter, resetSide_eq, completionSide_eq]
  refine ⟨memWrites_wf (fun z hz => hw z (mem_atPositions hz)) ?_, fun z hz => hw z (mem_atPositions hz)⟩
  rw [h3, hq]
  exact hostSide_wf hm

/-- The request port takes a presented word while it is open (R25). -/
theorem phaseEdge_receiving {e : Edge} {s : State} {before : List Word}
    (h : s.phase = .recv before ∨ (s.phase = .idle ∧ before = [])) (hv : e.reqValid = true) :
    phaseEdge e s = takeRequestWord e before s := by
  rcases h with h | ⟨h, hb⟩
  · simp [phaseEdge, h, hv]
  · subst hb; simp [phaseEdge, h, hv]

/-- A meaning ends in a next state. -/
theorem exec_next (i : Instr) (s : State) : ∃ t, exec i s = .next t := by
  cases i <;> simp [exec, execQuant, execQexp, execQnorm, execQshift, execDshift, execMrot, execMunrot, execDispc,
    execDisps, dispatch]
  all_goals split <;> simp

/-- What a meaning leaves alone, whatever the op: the build parameter, reset, and the other agents' side. -/
theorem exec_frame {i : Instr} {s t : State} (h : exec i s = .next t) :
    t.modesPred = s.modesPred ∧ t.inReset = s.inReset ∧ t.responses = s.responses ∧ t.around = s.around ∧
      t.inbox = s.inbox := by
  cases i <;> simp [exec, execQuant, execQexp, execQnorm, execQshift, execDshift, execMrot, execMunrot, execDispc,
    execDisps, dispatch] at h
  all_goals first
    | (subst h; simp)
    | (split at h <;> simp_all <;> subst h <;> simp)

/-- A whole packet leads to a next state. -/
theorem acceptPacket_next (p : List Word) (s : State) : ∃ t, acceptPacket p s = .next t := by
  obtain ⟨i, -, h⟩ | ⟨x, -, h⟩ := acceptPacket_cases p s
  · rw [h]; exact exec_next i s
  · exact ⟨_, h⟩

/-- A request word leads to a next state and leaves alone what an op leaves alone. -/
theorem takeRequestWord_next (e : Edge) (ws : List Word) (s : State) :
    ∃ t, takeRequestWord e ws s = .next t ∧ t.modesPred = s.modesPred ∧ t.inReset = s.inReset ∧
      t.responses = s.responses ∧ t.around = s.around ∧ t.inbox = s.inbox := by
  unfold takeRequestWord
  split
  · obtain ⟨i, -, h⟩ | ⟨x, -, h⟩ := acceptPacket_cases (ws ++ [e.reqData]) s
    · obtain ⟨t, ht⟩ := exec_next i s
      exact ⟨t, h.trans ht, exec_frame ht⟩
    · exact ⟨_, h, rfl, rfl, rfl, rfl, rfl⟩
  · exact ⟨_, rfl, rfl, rfl, rfl, rfl, rfl⟩

/-- The QDB's side of an edge leads to a next state and leaves alone the build parameter, reset and the other agents. -/
theorem phaseEdge_next (e : Edge) (s : State) :
    ∃ t, phaseEdge e s = .next t ∧ t.modesPred = s.modesPred ∧ t.inReset = s.inReset ∧ t.around = s.around ∧
      t.inbox = s.inbox := by
  have word : ∀ ws, ∃ t, takeRequestWord e ws s = .next t ∧ t.modesPred = s.modesPred ∧ t.inReset = s.inReset ∧
      t.around = s.around ∧ t.inbox = s.inbox := fun ws => by
    obtain ⟨t, h, h1, h2, -, h3⟩ := takeRequestWord_next e ws s
    exact ⟨t, h, h1, h2, h3⟩
  unfold phaseEdge
  split
  · split
    · exact word _
    · exact ⟨s, rfl, rfl, rfl, rfl, rfl⟩
  · split
    · exact word _
    · exact ⟨s, rfl, rfl, rfl, rfl, rfl⟩
  · refine ⟨_, rfl, ?_⟩
    unfold waitEdge
    split <;> simp [completeDispatch_eq]
  · refine ⟨_, rfl, ?_⟩
    unfold takeResponseWord
    split
    · split <;> simp
    · simp

/-- The QDB reads nothing of the other agents' side (R21, R40): an op does the same with another one. -/
theorem exec_ignores_around {i : Instr} {s t : State} (h : exec i s = .next t) (r : Around) :
    exec i { s with around := r } = .next { t with around := r } := by
  cases i <;> simp [exec, execQuant, execQexp, execQnorm, execQshift, execDshift, execMrot, execMunrot, execDispc,
    execDisps, dispatch] at h ⊢
  all_goals first
    | (subst h; rfl)
    | (split at h <;> simp_all <;> subst h <;> rfl)

/-- So does a request word. -/
theorem takeRequestWord_ignores_around {e : Edge} {ws : List Word} {s t : State} (h : takeRequestWord e ws s = .next t)
    (r : Around) : takeRequestWord e ws { s with around := r } = .next { t with around := r } := by
  unfold takeRequestWord at h ⊢
  split at h
  · rename_i hl
    rw [if_pos hl]
    unfold acceptPacket at h ⊢
    split at h
    · exact exec_ignores_around h r
    · cases h
      rfl
  · rename_i hl
    rw [if_neg hl]
    cases h
    rfl

/-- So does the QDB's side of an edge. -/
theorem phaseEdge_ignores_around {e : Edge} {s t : State} (h : phaseEdge e s = .next t) (r : Around) :
    phaseEdge e { s with around := r } = .next { t with around := r } := by
  unfold phaseEdge at h ⊢
  split at h
  · rename_i hp
    split at h
    · rename_i hv
      simp only [hp, hv, if_true]
      exact takeRequestWord_ignores_around h r
    · rename_i hv
      cases h
      simp [hp, hv]
  · rename_i ws hp
    split at h
    · rename_i hv
      simp only [hp, hv, if_true]
      exact takeRequestWord_ignores_around h r
    · rename_i hv
      cases h
      simp [hp, hv]
  · rename_i f st hp
    simp only [hp]
    cases h
    cases hd : e.doneValid <;> simp [waitEdge, hd, completeDispatch_eq, respond]
  · rename_i x k shown hp
    simp only [hp]
    cases h
    unfold takeResponseWord
    split
    · split <;> rfl
    · simp [hp]

/-- What the other agents have done is all a step changes on their side. -/
theorem step_around {s t : State} {e : Edge} {rest : List Edge} (h : s.inbox = e :: rest) (ht : step s = .next t) :
    t.around = aroundAfter e s ∧ t.inbox = rest := by
  cases hr : e.rst with
  | true =>
    rw [step_reset h hr] at ht
    cases ht
    exact ⟨rfl, rfl⟩
  | false =>
    cases hs : s.inReset with
    | true =>
      rw [step_release h hr hs] at ht
      cases ht
      exact ⟨rfl, rfl⟩
    | false =>
      rw [step_running h hr hs] at ht
      obtain ⟨u, hu, -, -, h3, h4⟩ := phaseEdge_next e { s with inbox := rest, around := aroundAfter e s }
      rw [hu, moveOn_next] at ht
      cases ht
      exact ⟨h3, h4⟩

/-- ROT is the residue (R132). -/
theorem rot_eq (modes : Nat) (m : Int) : rot modes m = (m - 1) % (modes : Int) := by
  simp [rot, flooredMod]

/-- One step of a run. -/
theorem run_succ (M : Host.Core) (k : Nat) (s t : M.State) (h : M.step s = .next t) : M.run (k + 1) s = M.run k t := by
  simp [Host.Core.run, h]

end Sys2Proof.Machine
end

