-- ==== Sys2Proof/Tests/Slice0.lean ====
section
/-! SUPPORT. Tests on fixed values, their expected results taken from 95_test_vectors.md and the corner cases of the op
rules, and a witness for each statement that has hypotheses: a state and operands that meet them all. -/

namespace Sys2Proof.Tests

open Sys2Proof.Machine Sys2Proof.Safety

/-! ## Helpers -/

/-- The three words of the response an outcome holds. -/
def wordsOf (r : Result) : Option (List Word) :=
  match r with
  | .next s => (pendingResponse s).map (fun r => [responseWord r 0, responseWord r 1, responseWord r 2])
  | _ => none

/-- The state after reset with another `M`. -/
def withModes (pred : Fin 256) : State := { State.reset with modesPred := pred }

/-- The response to a packet. -/
def reply (p : List Word) (s : State) : Option (List Word) := wordsOf (acceptPacket p s)

/-- What a dispatch packet leads to: command words, select, traces. -/
def forwardedBy (p : List Word) : Option (List (List Word × BitVec 256) × List (List Word)) :=
  match acceptPacket p State.reset with
  | .next s => some (s.issued.map (fun x => (commandWords x.cmd, x.sel)), s.traced.map traceWords)
  | _ => none

/-! ## Well-formedness: an ill-formed packet for each check -/

/-- L2-10: op 0 and op A are reserved. -/
theorem test_illFormed_reservedOp : packetWellFormed [0, 0] = false ∧ packetWellFormed [0xA, 0] = false := by decide

/-- L2-10: QUANT with header bit 4 or 31, DISPC with `rep`. -/
theorem test_illFormed_headerBit : packetWellFormed [0x11, 0] = false ∧ packetWellFormed [0x80000001, 0] = false ∧
    packetWellFormed [0x28, 1, 8, 2, 2, 2, 0x1000, 0, 0x2000, 0, 0x3000, 0, 0x4000, 0] = false := by decide

/-- L2-10: QUANT too short and too long. -/
theorem test_illFormed_length : packetWellFormed [1] = false ∧ packetWellFormed [1, 0, 0] = false := by decide

/-- L2-4: QSHIFT 256. -/
theorem test_illFormed_operand : packetWellFormed [4, 0x100] = false ∧ packetWellFormed [4, 0xFF] = true := by decide

/-- The rows of R62 do not overlap: no two share an op code, and each row's mask covers the op field. -/
theorem test_rows_disjoint : encodingRows.Pairwise (fun a b => a.code ≠ b.code) ∧
    encodingRows.all (fun r => r.mask &&& 0xF == 0xF && r.value &&& 0xF == r.code.setWidth 32) := by decide

/-! ## Decoding: words written out from R61 to R64, the errors by name, the byte view, listings -/

theorem test_decode_quantizer : decode [0x1, 0x3F000000] = .ok (.quant 0x3F000000) ∧
    decode [0x2, 0xFFFFFFFF] = .ok (.qexp 0xFFFFFFFF) ∧ decode [0x3, 0x7FC00001] = .ok (.qnorm 0x7FC00001) ∧
    decode [0x4, 0xFE] = .ok (.qshift 254) := by decide

theorem test_decode_dispatcher : decode [0x5, 0x40000000] = .ok (.dshift 0x40000000) ∧
    decode [0x6, 0x80000000] = .ok (.mrot 0x80000000) ∧ decode [0x7, 0x7FFFFFFF] = .ok (.munrot 0x7FFFFFFF) := by decide

/-- V-DC2: 64-bit addresses, low word first. -/
theorem test_decode_dispc : decode [0x8, 0xFFFFFFFF, 0x40000000, 1, 1, 1, 0x89ABCDEF, 0x01234567, 0x2000, 0, 0x3000, 0,
    0x4000, 0] = .ok (.dispc false false ⟨0xFFFFFFFF, 0x40000000, 1, 1, 1, 0x0123456789ABCDEF, 0x2000, 0x3000, 0x4000⟩) := by
  decide

/-- V-DS1: `rep` and `bias`, strides. -/
theorem test_decode_disps : decode [0x69, 2, 1, 2, 3, 4, 0x1000, 0, 0x2000, 0, 0x3000, 0, 0x4000, 0, 8, 8, 8, 0] =
    .ok (.disps false true true ⟨2, 1, 2, 3, 4, 0x1000, 0x2000, 0x3000, 0x4000⟩ ⟨8, 8, 8, 0⟩) := by decide

theorem test_decode_errors : decode [0xA, 0] = .error .reservedOp ∧ decode [0x11, 0] = .error .reservedHeaderBit ∧
    decode [0x1] = .error .wrongLength ∧ decode [0x4, 0x100] = .error .reservedOperandBits ∧
    decode [] = .error .emptyPacket ∧ decodeBytes [1, 0, 0] = .error .partialWord := by decide

/-- R44: little-endian bytes. -/
theorem test_bytes : wordBytes 0x3DCCCCCD = [0xCD, 0xCC, 0xCC, 0x3D] ∧
    decodeBytes [1, 0, 0, 0, 0xCD, 0xCC, 0xCC, 0x3D] = .ok (.quant 0x3DCCCCCD) := by decide

/-- R73, P4 step 3 and L2-8: a listing and its packet; a flag or operand out of place. -/
theorem test_assemble : (assemble .disps [.relu, .rep, .bias] [.dec 2, .dec 1, .dec 3, .dec 5, .dec 7, .hex 0x10000,
      .hex 0x20000, .hex 0x30000, .hex 0x40000, .dec 7, .dec 5, .dec 5, .dec 0]).map encode =
      some [0x79, 2, 1, 3, 5, 7, 0x10000, 0, 0x20000, 0, 0x30000, 0, 0x40000, 0, 7, 5, 5, 0] ∧
    (assemble .mrot [] [.dec (-1)]).map encode = some [0x6, 0xFFFFFFFF] ∧
    assemble .quant [.relu] [.hex 0] = none ∧ assemble .qshift [] [.dec 256] = none ∧
    assemble .dispc [.rep] [.dec 1, .dec 8, .dec 2, .dec 2, .dec 2, .hex 0, .hex 0, .hex 0, .hex 0] = none := by decide

/-- The host's table words: operand words of zeros. -/
theorem test_tableWord : decodeTableWord 32 1 = some (.quant 0) ∧ decodeTableWord 32 0x70 = none ∧
    decodeTableWord 32 0x79 = some (.disps true true true ⟨0, 0, 0, 0, 0, 0, 0, 0, 0⟩ ⟨0, 0, 0, 0⟩) ∧
    decodeTableWord 64 0x3F00000000000001 = some (.quant 0x3F000000) := by decide

/-! ## The ops (L2-1 to L2-10) -/

theorem test_quant_tenth : reply [0x1, 0x3DCCCCCD] State.reset = some [0x100, 0x66666680, 0x3] := by decide

/-- Largest normal, smallest normal, smallest and largest subnormal, 1.0. -/
theorem test_quant_corners : reply [0x1, 0x7F7FFFFF] State.reset = some [0x100, 0x7FFFFF80, 0xFFFFFF80] ∧
    reply [0x1, 0x00800000] State.reset = some [0x100, 0x40000000, 0x7D] ∧
    reply [0x1, 0x00000001] State.reset = some [0x100, 0x40000080, 0x7E] ∧
    reply [0x1, 0x007FFFFF] State.reset = some [0x100, 0x7FFFFF80, 0x7E] ∧
    reply [0x1, 0x3F800000] State.reset = some [0x100, 0x40000000, 0xFFFFFFFF] := by decide

/-- Out of domain: the patterns of R104. -/
theorem test_domain : [0x00000000, 0x80000000, 0xBF800000, 0x7F800000, 0x7FC00000].all (fun b => !inDomain b) ∧
    [0x00000001, 0x007FFFFF, 0x00800000, 0x7F7FFFFF].all (fun b => inDomain b) := by decide

theorem test_qexp : reply [0x2, 0x3DCCCCCD] State.reset = some [0x200, 0x7B, 0] ∧
    reply [0x2, 0xFFFFFFFF] State.reset = some [0x200, 0xFF, 0] ∧
    reply [0x2, 0x80000000] State.reset = some [0x200, 0, 0] := by decide

theorem test_qnorm : reply [0x3, 0xFFFFFFFF] State.reset = some [0x300, 0x3F7FFFFF, 0] ∧
    reply [0x3, 0x7FC00001] State.reset = some [0x300, 0x3F400001, 0] ∧
    reply [0x3, 0xBF800000] State.reset = some [0x300, 0x3F000000, 0] := by decide

theorem test_qshift : reply [0x4, 0] State.reset = some [0x400, 0x7E, 0] ∧
    reply [0x4, 0xFF] State.reset = some [0x400, 0xFFFFFF7F, 0] ∧
    reply [0x4, 0x100] State.reset = some [0x403, 0, 0] := by decide

theorem test_dshift_valid : reply [0x5, 1] State.reset = some [0x500, 0, 0] ∧
    reply [0x5, 0x00010000] State.reset = some [0x500, 0x10, 0] ∧
    reply [0x5, 0x40000000] State.reset = some [0x500, 0x1E, 0] := by decide

theorem test_dshift_invalid : [0, 3, 6, 0x7FFFFFFF, 0x80000000, 0xFFFFFFF8, 0xFFFFFFFF].all
    (fun d => reply [0x5, d] State.reset == some [0x501, 0, 0]) := by decide

/-- L2-6, row 3: in range, and the exact subtraction at `−2^31`. -/
theorem test_mrot_three : [0, 1, 2, 3, 4, 0xFFFFFFFF, 0x80000000, 0x7FFFFFFF].map (fun m => reply [0x6, m] State.reset) =
    [2, 0, 1, 2, 0, 1, 0, 0].map (fun (r : Word) => some [0x600, r, 0]) := by decide

/-- L2-6, rows 1 and 4. -/
theorem test_mrot_one_four : [0, 3, 0x80000000].map (fun m => reply [0x6, m] (withModes 0)) =
      [0, 0, 0].map (fun (r : Word) => some [0x600, r, 0]) ∧
    [0, 1, 4, 0xFFFFFFFF, 0x80000000, 0x7FFFFFFF].map (fun m => reply [0x6, m] (withModes 3)) =
      [3, 0, 3, 2, 3, 2].map (fun (r : Word) => some [0x600, r, 0]) := by decide

/-- L2-7, row 3: the exact addition at `2^31 − 1`. -/
theorem test_munrot_three : [0, 1, 2, 3, 0xFFFFFFFF, 0x80000000, 0x7FFFFFFF].map (fun i => reply [0x7, i] State.reset) =
    [1, 2, 0, 1, 0, 2, 2].map (fun (r : Word) => some [0x700, r, 0]) := by decide

/-- L2-7, rows 2 and 4. -/
theorem test_munrot_two_four : [0, 1, 0x80000000].map (fun i => reply [0x7, i] (withModes 1)) =
      [1, 0, 1].map (fun (r : Word) => some [0x700, r, 0]) ∧
    [2, 3, 0x80000000].map (fun i => reply [0x7, i] (withModes 3)) =
      [3, 0, 1].map (fun (r : Word) => some [0x700, r, 0]) := by decide

/-- V-DC1. -/
theorem test_dispc_forwards : forwardedBy [0x18, 0, 8, 4, 4, 4, 0x1000, 0, 0x2000, 0, 0x3000, 0, 0, 0] =
    some ([([2, 4, 4, 4, 0x1000, 0, 0x2000, 0, 0x3000, 0, 0, 0, 4, 4, 4, 4, 1, 3, 0], 0b100)],
      [[1, 0, 2, 8], [2, 4, 4, 4]]) := by decide

/-- L1-4 and V-DC6: an invalid divisor forwards nothing; a reserved header bit outranks it. -/
theorem test_dispc_rejected :
    reply [0x18, 1, 6, 2, 2, 2, 0x1000, 0, 0x2000, 0, 0x3000, 0, 0x4000, 0] State.reset = some [0x801, 0, 0] ∧
    forwardedBy [0x18, 1, 6, 2, 2, 2, 0x1000, 0, 0x2000, 0, 0x3000, 0, 0x4000, 0] = some ([], []) ∧
    reply [0x28, 1, 6, 2, 2, 2, 0x1000, 0, 0x2000, 0, 0x3000, 0, 0x4000, 0] State.reset = some [0x803, 0, 0] := by decide

/-- V-DS1. -/
theorem test_disps_forwards :
    forwardedBy [0x69, 2, 1, 2, 3, 4, 0x1000, 0, 0x2000, 0, 0x3000, 0, 0x4000, 0, 8, 8, 8, 0] =
    some ([([1, 2, 3, 4, 0x1000, 0, 0x2000, 0, 0x3000, 0, 0x4000, 0, 8, 8, 8, 0, 6, 0, 0], 0b010)],
      [[1, 2, 1, 9], [2, 2, 3, 4]]) := by decide

/-! ## Single edges -/

/-- V-DC1's request. -/
def args : DispatchArgs := ⟨0, 8, 4, 4, 4, 0x1000, 0x2000, 0x3000, 0⟩

/-- Its dispatch in flight, with `M = 3`. -/
def flight : Flight := ⟨.dispc, 0, buildIssued 3 true false false args (packedStrides args)⟩

/-- The machine with that dispatch in flight. -/
def waiting (st : Stage) (inbox : List Edge) : State :=
  { State.reset with
    phase := .waitExec flight st
    loan := some flight.issued.cmd
    issued := [flight.issued]
    traced := [backendRecord flight, dimsRecord flight]
    inbox := inbox }

/-- The executor's side once it has taken V-DC1's command. -/
def holding : Around := { Around.empty with executor := [⟨flight.issued.cmd, []⟩] }

/-- A write of the executor to the output of V-DC1. -/
def outWrite : ExecWrite := ⟨0, 0x3000, 0x5A⟩

/-- The machine with a response to be taken. -/
def answering (k : Fin 3) (shown : Bool) (inbox : List Edge) : State :=
  { State.reset with phase := .resp ⟨.ok, 2, 0x7F, 0⟩ k shown, inbox := inbox }

/-- The machine with one word of a QUANT received. -/
def receiving (inbox : List Edge) : State := { State.reset with phase := .recv [0x1], inbox := inbox }

/-- A state with scheduled edges. -/
def scheduled (s : State) (inbox : List Edge) : State := { s with inbox := inbox }

/-- P4 step 3's failure, V-DS3: the error word passes unchanged. -/
theorem test_executor_failure :
    wordsOf (step (waiting .taken [doneEdge false 0xBEEF])) = some [0x802, 0xBEEF, 0] ∧
    wordsOf (step (waiting .taken [doneEdge true 0xBEEF])) = some [0x800, 0, 0] := by decide

/-- R70: V-DC1's `cmd_data`, its internal mode X0 and its shift X17. -/
theorem test_command_data : (commandData flight.issued.cmd).extractLsb' 0 32 = 2 ∧
    (commandData flight.issued.cmd).extractLsb' 544 32 = 3 := by decide +kernel

/-- R24: V-DC1's select while its command is presented, and no command after; its `trc_data`. -/
theorem test_command_and_trace_ports :
    (ports false (waiting (.due .command true) [])).cmdSel = some 0b100 ∧
    (ports false (waiting .taken [])).cmd = none ∧
    (ports false (waiting (.due .dims true) [])).trc = some 0x00000004000000040000000400000002 := by decide

/-- R200: while `rst` is 1 nothing is valid. -/
theorem test_reset_ports : ports true (answering 0 true []) = resetPorts ∧
    (ports false (answering 0 true [])).rsp = some (0x200, false) := by decide

/-! ## The buffers and the executor -/

/-- The other agents' side after a step. -/
def aroundOf (r : Result) : Option Around :=
  match r with
  | .next s => some s.around
  | _ => none

/-- R51: between dispatches the host's storage is its own: it reads what it wrote last. -/
theorem test_host_storage : (aroundOf (step (scheduled State.reset
      [{ quietEdge with hostAccesses := [.write 0x1000 0xAA, .write 0x1000 0xAB, .write 0xFFF 1, .read 0x1000] }]))).map
        (fun r => (r.mem, r.hostReads, r.raced)) = some ([(0xFFF, 1), (0x1000, 0xAB)], [(0x1000, 0xAB)], []) := by decide

/-- R47: what the executor writes is recorded, and not visible to the host from that alone. -/
theorem test_executor_write : (aroundOf (step { waiting .taken [{ quietEdge with execWrites := [outWrite] }] with
      around := holding })).map (fun r => (r.executor.map Taken.wrote, r.pending, r.mem)) =
    some ([[(0x3000, 0x5A)]], [(0x3000, 0x5A)], []) := by decide

/-- R47, U14: it is visible once the platform makes it so. -/
theorem test_write_visible : (aroundOf (step { waiting .taken [{ quietEdge with visible := [0] }] with
      around := { holding with pending := [(0x3000, 0x5A), (0x3001, 0x5B)] } })).map (fun r => (r.pending, r.mem)) =
    some ([(0x3001, 0x5B)], [(0x3000, 0x5A)]) := by decide

/-- R208: a completion records what was written for its command, and `(ok, err)`. -/
theorem test_completion_record : (aroundOf (step { waiting .taken [{ doneEdge false 0xBEEF with execWrites := [outWrite] }] with
      around := holding })).map (fun r => (r.executor, r.completed.map (fun x => (x.wrote, x.ok, x.err)))) =
    some ([], [([(0x3000, 0x5A)], false, 0xBEEF)]) := by rfl

/-- R203, R201: the executor reset together with the QDB gives up the command it held; the QDB's reset alone leaves it. -/
theorem test_executor_reset : (aroundOf (step { waiting .taken [resetEdge] with around := holding })).map
      (fun r => (r.executor, r.dropped, r.completed)) = some ([], [⟨flight.issued.cmd, []⟩], []) ∧
    (aroundOf (step { waiting .taken [{ resetEdge with execRst := false }] with around := holding })).map
      (fun r => (r.executor, r.dropped)) = some ([⟨flight.issued.cmd, []⟩], []) := by decide

/-- R202, R203: what the executor gave up it does not complete. -/
theorem test_no_stale_completion : (aroundOf (step { waiting .taken [doneEdge true 0] with
      around := { Around.empty with dropped := holding.executor } })).map Around.completed = some [] := by decide

/-- R25: a gap between two words of a packet drops nothing. -/
theorem test_request_gap : step (receiving [quietEdge]) = .next (receiving []) := by rfl

/-- R8: an executor that holds no command writes nothing. -/
theorem test_no_command_no_write : (aroundOf (step (scheduled State.reset [{ quietEdge with execWrites := [outWrite] }]))) =
    some Around.empty := by decide

/-! ## Witnesses: each statement's hypotheses are met -/

theorem witness_EncodeDecodeRoundTrip : decode [0x1, 0x3F000000] = .ok (.quant 0x3F000000) := by decide

/-- Both ends of the range. -/
theorem witness_QuantIsExactOnNormals : 2 ^ 23 ≤ (0x00800000 : Word).toNat ∧ (0x00800000 : Word).toNat < 0x7F800000 ∧
    2 ^ 23 ≤ (0x7F7FFFFF : Word).toNat ∧ (0x7F7FFFFF : Word).toNat < 0x7F800000 := by decide

/-- Both ends of the range. -/
theorem witness_QuantOverstatesSubnormals : 0 < (1 : Word).toNat ∧ (1 : Word).toNat < 2 ^ 23 ∧
    0 < (0x007FFFFF : Word).toNat ∧ (0x007FFFFF : Word).toNat < 2 ^ 23 := by decide

/-- Subnormal, exponent 1, and largest. -/
theorem witness_QuantResultRanges : inDomain 0x1 = true ∧ inDomain 0x00800000 = true ∧ inDomain 0x7F7FFFFF = true := by
  decide

/-- Both clauses of QUANT: in domain at both ends, out of domain at both ends. -/
theorem witness_QuantAnswersPairOrDraws :
    (0 < (1 : Word).toNat ∧ (1 : Word).toNat < 0x7F800000) ∧ (0 < (0x7F7FFFFF : Word).toNat ∧ (0x7F7FFFFF : Word).toNat < 0x7F800000) ∧
    ¬(0 < (0 : Word).toNat ∧ (0 : Word).toNat < 0x7F800000) ∧
    ¬(0 < (0x7F800000 : Word).toNat ∧ (0x7F800000 : Word).toNat < 0x7F800000) := by decide

/-- QSHIFT's two clauses on the operand word. -/
theorem witness_QshiftAnswersShift : (0xFF : Word).toNat < 256 ∧ ¬ (0x100 : Word).toNat < 256 := by decide

theorem witness_SubUnitsCompose : inDomain 0x3DCCCCCD = true ∧ inDomain 0x7FC00000 = false := by decide

theorem witness_BitCountsOfOneBit : popcount32 0x1 = 1 ∧ popcount32 0x80000000 = 1 := by decide

theorem witness_DeriveShiftIsLogarithm : isPow2 0x1 = true ∧ isPow2 0x40000000 = true := by decide

/-- The smallest mode count, and the ends of its range; `M = 3` for the middle clause. -/
theorem witness_RotIsBijectionOnModes : 0 < 1 ∧ 0 < 3 ∧ (1 : Int) ≤ 1 ∧ (1 : Int) ≤ (3 : Nat) - 1 ∧ (1 : Int) ≤ 2 ∧
    (2 : Int) ≤ (3 : Nat) - 1 ∧ (0 : Int) ≤ 0 ∧ (0 : Int) < (1 : Nat) := by decide

theorem witness_RotIsFlooredResidue : 0 < 1 ∧ 0 < 256 := by decide

theorem witness_UnrotInvertsRot : 0 < 256 ∧ (0 : Int) ≤ 0 ∧ (0 : Int) < (256 : Nat) ∧ (0 : Int) ≤ 255 ∧
    (255 : Int) < (256 : Nat) := by decide

/-- Valid at both ends; invalid at 0, 3 and the sign bit. -/
theorem witness_DshiftValidatesAndDerives : (0x1 : Word).toNat = 2 ^ 0 ∧ (0x40000000 : Word).toNat = 2 ^ 30 ∧
    (∀ k ≤ 30, (0 : Word).toNat ≠ 2 ^ k) ∧ (∀ k ≤ 30, (3 : Word).toNat ≠ 2 ^ k) ∧
    ∀ k ≤ 30, (0x80000000 : Word).toNat ≠ 2 ^ k := by decide

theorem witness_DispcForwardsPackedCommand : 3 ≤ 30 ∧ args.divisor.toNat = 2 ^ 3 ∧
    ({ args with divisor := 0x40000000 } : DispatchArgs).divisor.toNat = 2 ^ 30 := by decide

theorem witness_DispsForwardsStridedCommand : 0 ≤ 30 ∧ ({ args with divisor := 1 } : DispatchArgs).divisor.toNat = 2 ^ 0 ∧
    ({ args with divisor := 0x40000000 } : DispatchArgs).divisor.toNat = 2 ^ 30 := by decide

theorem witness_InvalidDivisorIsRejected : ({ args with divisor := 6 } : DispatchArgs).divisor = 6 ∧
    ∀ k ≤ 30, (6 : Word).toNat ≠ 2 ^ k := by decide

/-- Both branches. -/
theorem witness_StridedParity : isPow2 args.divisor = true ∧
    isPow2 ({ args with divisor := 6 } : DispatchArgs).divisor = false := by decide

theorem witness_SelectIsOneHot : 0 < 1 ∧ 1 ≤ 256 ∧ 0 < 256 ∧ 256 ≤ 256 := by decide

theorem witness_DispatchWordsAreRead : (BitVec.ofNat 32 (9 + 16 * true.toNat + 32 * true.toNat + 64 * true.toNat) : Word) =
    0x79 := by decide

theorem witness_CommandDataLayout : 18 < 19 ∧ (commandWords flight.issued.cmd)[18]? = some 0 := by decide

theorem witness_ByteViewIsLittleEndian : 3 < 4 ∧ (bytesOfPacket [0x3DCCCCCD])[3]? = some 0x3D := by decide

theorem witness_StepRunsDecodedInstruction :
    (receiving [wordEdge 0x3F000000 true]).inbox = [wordEdge 0x3F000000 true] ∧
    (wordEdge 0x3F000000 true).rst = false ∧ (receiving [wordEdge 0x3F000000 true]).inReset = false ∧
    (receiving [wordEdge 0x3F000000 true]).phase = .recv [0x1] ∧
    (wordEdge 0x3F000000 true).reqValid = true ∧ (wordEdge 0x3F000000 true).reqLast = true ∧
    decode ([0x1] ++ [(wordEdge 0x3F000000 true).reqData]) = .ok (.quant 0x3F000000) := by decide

theorem witness_PlacedInstructionRuns : decodeTableWord 32 0x9 =
    some (.disps false false false ⟨0, 0, 0, 0, 0, 0, 0, 0, 0⟩ ⟨0, 0, 0, 0⟩) := by decide

/-- In `RECV`, and a one-word packet in `IDLE`. -/
theorem witness_IllegalPacketIsAnswered :
    (receiving [wordEdge 0 false, wordEdge 0 true]).inReset = false ∧ (wordEdge 0 true).rst = false ∧
    (wordEdge 0 true).reqValid = true ∧ (wordEdge 0 true).reqLast = true ∧
    (scheduled State.reset [wordEdge 0 true]).phase = .idle ∧
    decode ([] ++ [(wordEdge 0 true).reqData]) = .error .reservedOp ∧
    decode ([0x1, 0] ++ [(wordEdge 0 true).reqData]) = .error .wrongLength := by decide

/-- An illegal packet, and an invalid divisor. -/
theorem witness_OneStatusInPriorityOrder :
    (∃ t r, acceptPacket [0x0] State.reset = .next t ∧ pendingResponse t = some r ∧ r.status = .illegalOperation) ∧
    ∃ t r, acceptPacket [0x5, 6] State.reset = .next t ∧ pendingResponse t = some r ∧ r.status = .invalidArgument :=
  ⟨⟨_, _, rfl, rfl, rfl⟩, ⟨_, _, rfl, rfl, rfl⟩⟩

/-- A closed port, words taken in `IDLE` and in `RECV`, and no word presented. -/
theorem witness_RequestPortTakesWordsWhileOpen :
    (waiting .taken [wordEdge 1 false]).inbox = [wordEdge 1 false] ∧
    (ports (wordEdge 1 false).rst (waiting .taken [wordEdge 1 false])).reqReady = false ∧
    (receiving [wordEdge 5 false]).inbox = [wordEdge 5 false] ∧
    (wordEdge 5 false).rst = false ∧ (receiving [wordEdge 5 false]).inReset = false ∧
    (receiving [wordEdge 5 false]).phase = .recv [0x1] ∧ (scheduled State.reset [wordEdge 5 false]).phase = .idle ∧
    (wordEdge 5 false).reqValid = true ∧ (wordEdge 5 false).reqLast = false ∧
    (receiving [quietEdge]).phase = .recv [0x1] ∧ quietEdge.rst = false ∧ quietEdge.reqValid = false := by decide

/-- The first and the last word. -/
theorem witness_ResponseIsDeliveredInOrder : (answering 2 true [readyEdge]).inbox = [readyEdge] ∧ readyEdge.rst = false ∧
    (answering 2 true [readyEdge]).inReset = false ∧ (answering 2 true [readyEdge]).phase = .resp ⟨.ok, 2, 0x7F, 0⟩ 2 true ∧
    (answering 0 false [readyEdge]).phase = .resp ⟨.ok, 2, 0x7F, 0⟩ 0 false := by decide

theorem witness_CompletionEndsTheWait : (waiting .taken [doneEdge true 0]).inbox = [doneEdge true 0] ∧
    (doneEdge true 0).rst = false ∧ (waiting .taken [doneEdge true 0]).inReset = false ∧
    (waiting .taken [doneEdge true 0]).phase = .waitExec flight .taken ∧ (doneEdge true 0).doneValid = true := by decide

/-- In `IDLE`, at a reset edge, and in reset. -/
theorem witness_StaleCompletionIsDiscarded : (scheduled State.reset [doneEdge true 0]).inbox = [doneEdge true 0] ∧
    (∀ f st, (scheduled State.reset [doneEdge true 0]).phase ≠ .waitExec f st) ∧
    ({ doneEdge true 0 with rst := true } : Edge).rst = true ∧
    ({ scheduled State.reset [doneEdge true 0] with inReset := true } : State).inReset = true :=
  ⟨rfl, fun _ _ h => Phase.noConfusion h, rfl, rfl⟩

theorem witness_WaitEndsOnlyByCompletionOrReset : (waiting .taken [quietEdge]).inbox = [quietEdge] ∧ quietEdge.rst = false ∧
    (waiting .taken [quietEdge]).inReset = false ∧ (waiting .taken [quietEdge]).phase = .waitExec flight .taken ∧
    quietEdge.doneValid = false := by decide

theorem witness_HangLastsForever : (waiting .taken [quietEdge]).inReset = false ∧
    (waiting .taken [quietEdge]).phase = .waitExec flight .taken ∧
    ∀ e ∈ (waiting .taken [quietEdge]).inbox, e.rst = false ∧ e.doneValid = false := by decide

/-- Not yet shown, taken and not taken, and after. -/
theorem witness_CommandIsStableUntilTaken : (waiting (.due .command true) [commandEdge]).inbox = [commandEdge] ∧
    commandEdge.rst = false ∧ (waiting (.due .command true) [commandEdge]).inReset = false ∧
    (waiting (.due .command true) [commandEdge]).phase = .waitExec flight (.due .command true) ∧
    (waiting (.due .command false) [quietEdge]).phase = .waitExec flight (.due .command false) ∧
    (waiting .taken [quietEdge]).phase = .waitExec flight .taken ∧
    commandEdge.doneValid = false ∧ commandEdge.cmdReady = true ∧ quietEdge.doneValid = false ∧
    quietEdge.cmdReady = false := by decide

/-- The clauses: not yet shown, at an edge that does not move on, and the two records shown. -/
theorem witness_TraceRecordsLastOneCycle : (waiting (.due .backend true) [sinkEdge]).inbox = [sinkEdge] ∧
    sinkEdge.rst = false ∧ (waiting (.due .backend true) [sinkEdge]).inReset = false ∧ sinkEdge.doneValid = false ∧
    (waiting (.due .dims false) [{ sinkEdge with advance := false }]).phase = .waitExec flight (.due .dims false) ∧
    step (waiting (.due .dims false) [{ sinkEdge with advance := false }]) = .next (waiting (.due .dims false) []) ∧
    (waiting (.due .backend true) [sinkEdge]).phase = .waitExec flight (.due .backend true) ∧
    (waiting (.due .dims true) [sinkEdge]).phase = .waitExec flight (.due .dims true) := ⟨rfl, rfl, rfl, rfl, rfl, rfl, rfl, rfl⟩

theorem witness_SinkAndBuffersHaveNoEffect : (waiting (.due .dims true) [sinkEdge]).inbox = [sinkEdge] := by decide

/-- An executor that holds a command, writes and completes, at an edge at which its write becomes visible. -/
theorem witness_ExecutorWritesAreRecorded :
    let e : Edge := { doneEdge true 0 with execWrites := [outWrite], visible := [0] }
    let s : State := { waiting .taken [e] with around := holding }
    s.inbox = [e] ∧ ∃ t, step s = .next t ∧ t.around.completed.map Completion.wrote = [[(0x3000, 0x5A)]] ∧
      t.around.mem = [(0x3000, 0x5A)] :=
  ⟨rfl, _, rfl, rfl, rfl⟩

/-- Without the executor's reset and with it. -/
theorem witness_ResetAbandonsTransaction : (waiting .taken [{ quietEdge with rst := true }]).inbox =
    [{ quietEdge with rst := true }] ∧ ({ quietEdge with rst := true } : Edge).rst = true ∧
    ({ quietEdge with rst := true } : Edge).execRst = false ∧ ({ quietEdge with rst := true } : Edge).doneValid = false ∧
    (waiting .taken [resetEdge]).inbox = [resetEdge] ∧ resetEdge.rst = true ∧ resetEdge.execRst = true := by decide

theorem witness_ReleaseLeavesResetState : ({ State.reset with inReset := true, inbox := [quietEdge] } : State).inbox =
    [quietEdge] ∧ quietEdge.rst = false ∧ ({ State.reset with inReset := true, inbox := [quietEdge] } : State).inReset = true := by
  decide

/-- A step that changes the state: a quiet edge shows the response. -/
theorem witness_ModeCountNeverChanges : step (answering 0 false []) = .next (answering 0 true []) := by rfl

theorem witness_OpsDependOnRequestOnly : State.reset.modesPred = (waiting .taken []).modesPred ∧
    drawsUsed (.quant 0) = 2 ∧ State.reset.draws = (waiting .taken []).draws ∧ drawsUsed (.quant 0x3F000000) = 0 := by decide

theorem witness_EdgesRefineTransactions : (answering 0 false [quietEdge]).inbox = [quietEdge] ∧
    step (answering 0 false [quietEdge]) = .next (answering 0 true []) := ⟨rfl, rfl⟩

/-- The select of V-DC1's command has bit 2 and no other. -/
theorem flight_select (j : Nat) : flight.issued.sel.getLsbD j = decide (j = flight.issued.cmd.internalMode.toNat) := by
  have h : flight.issued.sel = BitVec.ofNat 256 (2 ^ 2) := by decide
  have h2 : flight.issued.cmd.internalMode.toNat = 2 := by decide
  rw [h, h2, BitVec.getLsbD_ofNat, Nat.testBit_two_pow]
  by_cases hj : j = 2
  · subst hj; decide
  · simp [hj, Ne.symm hj]

/-- A dispatch in flight meets the invariant. -/
theorem waiting_inv (st : Stage) (inbox : List Edge) : Inv (waiting st inbox) := by
  have hx : issuedOk 3 flight.issued := ⟨by decide, by decide, by decide, flight_select⟩
  refine ⟨by simp [waiting, State.reset], ?_, ⟨[flight], rfl, rfl⟩, ⟨hx, rfl⟩, by simp [waiting, State.reset], ⟨List.Pairwise.nil, by simp [waiting, State.reset, Around.empty]⟩,
    by simp [waiting, State.reset, Around.empty]⟩
  intro x h
  simp only [waiting, List.mem_singleton] at h
  subst h
  exact hx

theorem witness_EveryStepKeepsInvariant : Inv (waiting (.due .command false) []) ∧
    step (waiting (.due .command false) []) = .next (waiting (.due .command true) []) := ⟨waiting_inv _ _, rfl⟩

/-- A completion, and a reset of QDB and executor. -/
theorem witness_ExecutorStaysInStep : ∀ e ∈ [doneEdge true 0, resetEdge],
    let s : State := { waiting .taken [e] with around := holding }
    s.inbox = [e] ∧ (s.inReset = true → s.phase = .idle) ∧ executorInStep s ∧ executorKeepsDuty e s ∧ resetTogether e ∧
      ∃ t, step s = .next t := by
  intro e he
  obtain rfl | rfl : e = doneEdge true 0 ∨ e = resetEdge := by simpa using he
  · exact ⟨rfl, fun h => Bool.noConfusion h, rfl, fun _ => List.cons_ne_nil _ _, rfl, _, rfl⟩
  · exact ⟨rfl, fun h => Bool.noConfusion h, rfl, fun h => Bool.noConfusion h, rfl, _, rfl⟩

/-- A dispatch in flight, an executor that holds its command, a host that writes to its output, and a quiet host. -/
theorem witness_LoanLastsUntilResponseTaken : Inv (waiting .taken [quietEdge]) ∧
    (waiting .taken [quietEdge]).inbox = [quietEdge] ∧ quietEdge.rst = false ∧
    (waiting .taken [quietEdge]).loan = some flight.issued.cmd ∧
    step (waiting .taken [quietEdge]) = .next (waiting .taken []) ∧
    hostKeepsDuties quietEdge (waiting .taken [quietEdge]) ∧ outsDisjoint (waiting .taken [quietEdge]) ∧
    (∃ t, step { waiting .taken [accessEdge (.write 0x3000 0)] with around := holding } = .next t) ∧
    ⟨flight.issued.cmd, []⟩ ∈ holding.executor ∧ (accessEdge (.write 0x3000 0)).doneValid = false ∧
    (accessEdge (.write 0x3000 0)).execRst = false :=
  ⟨waiting_inv _ _, rfl, rfl, rfl, rfl, fun _ h => (List.not_mem_nil h).elim, fun _ _ _ h => (List.not_mem_nil h).elim,
    ⟨_, rfl⟩, List.mem_singleton.2 rfl, rfl, rfl⟩

theorem witness_TransactionRunsEndToEnd : ∃ s : State, s.inReset = false ∧ s.phase = .idle ∧
    (Instr.quant 0x3DCCCCCD).opCode ≠ .dispc ∧ (Instr.quant 0x3DCCCCCD).opCode ≠ .disps ∧
    s.inbox = packetEdges (encode (.quant 0x3DCCCCCD)) ++ [readyEdge, readyEdge, readyEdge] :=
  ⟨scheduled State.reset _, rfl, rfl, by decide, by decide, rfl⟩

/-- Both forms. -/
theorem witness_DispatchRunsEndToEnd :
    (∀ i, i = .dispc true false args ∨ i = .disps true false false args ⟨4, 4, 4, 4⟩ →
      ∃ s : State, s.inReset = false ∧ s.phase = .idle ∧ s.around.executor = [] ∧ isPow2 args.divisor = true ∧
        s.inbox = packetEdges (encode i) ++ [sinkEdge, sinkEdge, commandEdge, writeEdge [(0x3000, 0x5A)],
          doneEdge false 0xBEEF, readyEdge, readyEdge, readyEdge]) ∧
    (encode (.dispc true false args)).length = 14 ∧ (encode (.disps true false false args ⟨4, 4, 4, 4⟩)).length = 18 :=
  ⟨fun _ _ => ⟨scheduled State.reset _, rfl, rfl, rfl, by decide, rfl⟩, rfl, rfl⟩

end Sys2Proof.Tests
end

section
/-! Bit counts (R13): what the three counters say of a word with one set bit. -/

namespace Sys2Proof.Machine

/-- No set bit below `k`. -/
theorem setBitsBelow_eq_zero {w : Word} {k : Nat} (h : setBitsBelow w k = 0) : ∀ i < k, w.getLsbD i = false := by
  induction k with
  | zero => simp
  | succ k ih =>
    simp only [setBitsBelow, Nat.add_eq_zero_iff, ite_eq_right_iff] at h
    obtain ⟨hbelow, hk⟩ := h
    intro i hi
    rcases Nat.lt_succ_iff_lt_or_eq.1 hi with hi | rfl
    · exact ih hbelow i hi
    · simpa using hk

/-- Exactly one set bit below `k`: the bits below `k` are those of a power of two. -/
theorem setBitsBelow_eq_one {w : Word} {k : Nat} (h : setBitsBelow w k = 1) :
    ∃ j < k, ∀ i < k, w.getLsbD i = decide (i = j) := by
  induction k with
  | zero => simp [setBitsBelow] at h
  | succ k ih =>
    cases hk : w.getLsbD k with
    | false =>
      obtain ⟨j, hj, hbits⟩ := ih (by simpa [setBitsBelow, hk] using h)
      refine ⟨j, by omega, fun i hi => ?_⟩
      rcases Nat.lt_succ_iff_lt_or_eq.1 hi with hi | rfl
      · exact hbits i hi
      · simp [hk, hj.ne']
    | true =>
      have hbelow := setBitsBelow_eq_zero (w := w) (k := k) (by simpa [setBitsBelow, hk] using h)
      refine ⟨k, by omega, fun i hi => ?_⟩
      rcases Nat.lt_succ_iff_lt_or_eq.1 hi with hi | rfl
      · simp [hbelow i hi, hi.ne]
      · simp [hk]

/-- Above its highest set bit `j`, a word has zero bits only: those below bit `k` are counted. -/
theorem leadingZerosBelow_of_highest {w : Word} {j k : Nat} (hj : w.getLsbD j = true) (hjk : j < k)
    (hzero : ∀ i, j < i → i < k → w.getLsbD i = false) : leadingZerosBelow w k = k - 1 - j := by
  induction k with
  | zero => omega
  | succ k ih =>
    rcases Nat.lt_succ_iff_lt_or_eq.1 hjk with hlt | rfl
    · rw [leadingZerosBelow, hzero k hlt (by omega), ih hlt (fun i h h' => hzero i h (by omega))]
      simp only [Bool.false_eq_true, if_false]
      omega
    · simp [leadingZerosBelow, hj]

/-- Below its lowest set bit `j`, a word has zero bits only: those from bit `k` upwards are counted. -/
theorem trailingZerosFrom_of_lowest {w : Word} {j k n : Nat} (hj : w.getLsbD j = true) (hkj : k ≤ j) (hjn : j < k + n)
    (hzero : ∀ i, k ≤ i → i < j → w.getLsbD i = false) : trailingZerosFrom w k n = j - k := by
  induction n generalizing k with
  | zero => omega
  | succ n ih =>
    rcases Nat.lt_or_eq_of_le hkj with hlt | rfl
    · rw [trailingZerosFrom, hzero k le_rfl hlt, ih hlt (by omega) (fun i h h' => hzero i (by omega) h')]
      simp only [Bool.false_eq_true, if_false]
      omega
    · simp [trailingZerosFrom, hj]

/-- A word with exactly one set bit, at its place: its value and both counts. -/
theorem one_bit_of_popcount {w : Word} (h : popcount32 w = 1) :
    ∃ j < 32, w.toNat = 2 ^ j ∧ clz32 w = 31 - j ∧ ctz32 w = j := by
  obtain ⟨j, hj, hbits⟩ := setBitsBelow_eq_one h
  have hset : w.getLsbD j = true := by simp [hbits j hj]
  have hclear : ∀ i < 32, i ≠ j → w.getLsbD i = false := fun i hi hne => by simp [hbits i hi, hne]
  have hw : w = BitVec.twoPow 32 j := by
    apply BitVec.eq_of_getLsbD_eq
    intro i hi
    rw [hbits i hi, BitVec.getLsbD_twoPow, decide_eq_true hj, Bool.true_and]
    exact decide_eq_decide.2 eq_comm
  refine ⟨j, hj, ?_, ?_, ?_⟩
  · rw [hw, BitVec.toNat_twoPow_of_lt hj]
  · exact leadingZerosBelow_of_highest hset hj (fun i hji hi => hclear i hi hji.ne')
  · exact trailingZerosFrom_of_lowest hset (Nat.zero_le j) (by omega) (fun i _ hij => hclear i (by omega) hij.ne)

end Sys2Proof.Machine

open Sys2Proof.Machine

/-- Settles O17: the one set bit is at some place `j`, and `clz32` is `31 − j`, `ctz32` is `j`. -/
theorem bitCountsOfOneBit : Obligations.BitCountsOfOneBit := by
  refine ⟨fun w h => ?_, by decide, by decide⟩
  obtain ⟨j, hj, hval, hclz, hctz⟩ := one_bit_of_popcount h
  rw [hclz, hctz]
  exact ⟨by omega, hval⟩
end

section
/-! The executor's side of an edge (R8, R47): what each agent changes, field by field. -/

namespace Sys2Proof.Machine

/-! ### Storage -/

/-- A read after several writes: the last byte written at the address, what was there where none was. -/
theorem memRead_memWrites (xs m : List Host.Cell) (a : Nat) :
    memRead (xs.foldl (fun m x => memWrite m x.1 x.2) m) a =
      ((xs.reverse.find? (fun x => x.1 == a)).map Prod.snd).or (memRead m a) := by
  induction xs generalizing m with
  | nil => simp
  | cons x xs ih =>
    rw [List.foldl_cons, ih, memRead_memWrite, List.reverse_cons, List.find?_append]
    cases xs.reverse.find? (fun y => y.1 == a) with
    | some y => simp
    | none =>
      by_cases h : a = x.1
      · simp [h]
      · simp [h, Ne.symm h]

/-! ### The ports -/

/-- What the sink takes at an edge. -/
theorem sinkSide_eq (e : Edge) (p : Phase) (r : Around) :
    sinkSide e p r = { r with sink := r.sink ++ (if e.sinkTakes then (traceOnPort p).toList else []) } := by
  unfold sinkSide
  cases traceOnPort p <;> cases e.sinkTakes <;> simp

/-- What the executor takes at an edge. -/
theorem commandSide_executor (e : Edge) (p : Phase) (r : Around) :
    (commandSide e p r).executor =
      r.executor ++ (if e.cmdReady then (commandOnPort p).toList.map (fun c => ⟨c.cmd, []⟩) else []) := by
  unfold commandSide
  cases commandOnPort p <;> cases e.cmdReady <;> simp

/-- What the executor holds once it has looked at its port depends on what it held, and on nothing else around the QDB. -/
theorem portSide_executor_congr (e : Edge) (s : State) {r r' : Around} (h : r.executor = r'.executor) :
    (portSide e s r).executor = (portSide e s r').executor := by
  unfold portSide
  split
  · exact h
  · simp [commandSide_executor, sinkSide_eq, h]

/-! ### The executor's writes -/

/-- The cells of some of the executor's writes, in order. -/
def writtenCells (ws : List ExecWrite) : List Host.Cell := ws.map (fun w => (w.addr.toNat, w.byte))

/-- The command at position `k` with what an edge's writes add to it. -/
def withWrites (ws : List ExecWrite) (k : Nat) (h : Taken) : Taken :=
  ⟨h.cmd, h.wrote ++ writtenCells (ws.filter (fun w => w.slot == k))⟩

/-- One write is recorded with the command at its position. -/
theorem executorWrite_executor (r : Around) (w : ExecWrite) :
    (executorWrite r w).executor = r.executor.mapIdx (withWrites [w]) := by
  apply List.ext_getElem?
  intro k
  unfold executorWrite
  by_cases hk : w.slot = k
  · subst hk
    split
    · simp only [List.getElem?_modify, List.getElem?_mapIdx, if_true, Option.map_eq_map]
      congr 1
      funext h
      simp [withWrites, writtenCells]
    · rename_i h
      simp [List.getElem?_eq_none (Nat.le_of_not_lt h)]
  · have hnone : withWrites [w] k = id := by funext h; simp [withWrites, writtenCells, hk]
    split <;> simp [hk, hnone]

/-- An edge's writes are recorded with the commands at their positions, in order. -/
theorem writeSide_executor (e : Edge) (r : Around) :
    (writeSide e r).executor = r.executor.mapIdx (withWrites e.execWrites) := by
  unfold writeSide
  induction e.execWrites generalizing r with
  | nil =>
    have hnone : ∀ k, withWrites [] k = id := fun k => by funext h; simp [withWrites, writtenCells]
    apply List.ext_getElem?
    simp [hnone]
  | cons w ws ih =>
    rw [List.foldl_cons, ih, executorWrite_executor, List.mapIdx_mapIdx]
    congr 1
    funext k h
    by_cases hk : w.slot = k <;> simp [withWrites, writtenCells, hk]

/-! ### The whole edge -/

/-- The other agents at an edge up to the executor's writes: what follows is what becomes visible, the completion and the
executor's reset. -/
def afterWrites (e : Edge) (s : State) : Around := writeSide e (portSide e s (hostSide e s.loan s.around))

/-- What the executor holds then: what it held or took, with the edge's writes. -/
theorem afterWrites_executor (e : Edge) (s : State) :
    (afterWrites e s).executor = (portSide e s s.around).executor.mapIdx (withWrites e.execWrites) := by
  obtain ⟨hx, -⟩ := hostSide_frame e s.loan s.around
  rw [afterWrites, writeSide_executor, portSide_executor_congr e s hx]

/-- What is then on its way to the host: what was, and the writes for a command held. -/
theorem afterWrites_pending (e : Edge) (s : State) :
    (afterWrites e s).pending = s.around.pending ++ writtenCells
      (e.execWrites.filter (fun w => decide (w.slot < (portSide e s s.around).executor.length))) := by
  obtain ⟨hx, -, -, hpending, -, -⟩ := hostSide_frame e s.loan s.around
  obtain ⟨-, -, -, -, -, -, -, -, hsent⟩ := writeSide_frame e (portSide e s (hostSide e s.loan s.around))
  obtain ⟨x, l, k, hp⟩ := portSide_frame e s (hostSide e s.loan s.around)
  rw [afterWrites, hsent, portSide_executor_congr e s hx, hp]
  exact congrArg (· ++ _) hpending

/-- Storage is then as the host's accesses left it, and no command has been completed or given up. -/
theorem afterWrites_frame (e : Edge) (s : State) :
    (afterWrites e s).mem = (hostSide e s.loan s.around).mem ∧
    (afterWrites e s).completed = s.around.completed ∧ (afterWrites e s).dropped = s.around.dropped := by
  obtain ⟨-, hcompleted, hdropped, -, -, -⟩ := hostSide_frame e s.loan s.around
  obtain ⟨wcompleted, wdropped, wmem, -⟩ := writeSide_frame e (portSide e s (hostSide e s.loan s.around))
  obtain ⟨x, l, k, hp⟩ := portSide_frame e s (hostSide e s.loan s.around)
  rw [afterWrites, wmem, wcompleted, wdropped, hp]
  exact ⟨rfl, hcompleted, hdropped⟩

/-- The rest of the edge. -/
theorem aroundAfter_eq (e : Edge) (s : State) :
    aroundAfter e s = resetSide e (completionSide e (visibleSide e (afterWrites e s))) := rfl

end Sys2Proof.Machine

open Sys2Proof.Machine

/-- Settles O38: the sides of an edge in their order, each by the lemma that says what it changes. -/
theorem executorWritesAreRecorded : Obligations.ExecutorWritesAreRecorded := by
  intro s t e rest hin hstep cells held now left sent
  obtain ⟨ht, -⟩ := step_around hin hstep
  obtain ⟨hmem, hcompleted, hdropped⟩ := afterWrites_frame e s
  rw [ht, aroundAfter_eq, resetSide_eq, completionSide_eq, visibleSide]
  simp only [afterWrites_executor, afterWrites_pending, hmem, hcompleted, hdropped]
  exact ⟨rfl, rfl, rfl, rfl, fun a => memRead_memWrites _ _ a⟩
end

section
/-! The encoder and the decoder (R61 to R67): every instruction's packet decodes to it. -/

namespace Sys2Proof

/-- The op field of an encoded header is the op's code, whatever the flags (R61). -/
theorem opField_headerWord (op : OpCode) (relu rep biasEn : Bool) :
    opField (headerWord op relu rep biasEn) = opCodeBits op := by
  cases op <;> decide +revert

/-- The flags of an encoded header are those encoded (R61). -/
theorem flags_headerWord (op : OpCode) (relu rep biasEn : Bool) :
    reluBit (headerWord op relu rep biasEn) = relu ∧ repBit (headerWord op relu rep biasEn) = rep ∧
      biasBit (headerWord op relu rep biasEn) = biasEn := by
  cases op <;> decide +revert

/-- The op codes of R62 name their ops. -/
theorem opOfField_opCodeBits (op : OpCode) : opOfField (opCodeBits op) = some op := by
  cases op <;> rfl

/-- A header without flags sets no reserved bit. -/
theorem reservedHeaderSet_plain (op : OpCode) : reservedHeaderSet op (headerWord op false false false) = false := by
  cases op <;> decide

/-- Nor does a DISPC header with the two flags it allows (R66). -/
theorem reservedHeaderSet_dispc (relu biasEn : Bool) :
    reservedHeaderSet .dispc (headerWord .dispc relu false biasEn) = false := by
  decide +revert

/-- Nor does a DISPS header with its three flags (R66). -/
theorem reservedHeaderSet_disps (relu rep biasEn : Bool) :
    reservedHeaderSet .disps (headerWord .disps relu rep biasEn) = false := by
  decide +revert

/-- A packet with an encoded header is decoded by its operands. -/
theorem decode_headerWord {op : OpCode} {relu rep biasEn : Bool}
    (h : reservedHeaderSet op (headerWord op relu rep biasEn) = false) (rest : List Word) :
    decode (headerWord op relu rep biasEn :: rest) = decodeOperands op (headerWord op relu rep biasEn) rest := by
  simp [decode, opField_headerWord, opOfField_opCodeBits, h]

/-- An address is joined again from its two words (R44). -/
theorem joinAddr_words (a : Addr) : joinAddr (addrLo a) (addrHi a) = a := by
  apply BitVec.eq_of_getLsbD_eq
  intro i hi
  simp only [joinAddr, addrLo, addrHi, BitVec.getLsbD_or, BitVec.getLsbD_shiftLeft, BitVec.getLsbD_setWidth,
    BitVec.getLsbD_extractLsb']
  by_cases h : i < 32
  · simp [h, hi]
  · have hsub : 32 + (i - 32) = i := by omega
    have hhigh : i - 32 < 32 := by omega
    simp [h, hi, hsub, hhigh, Nat.lt_of_le_of_lt (Nat.sub_le i 32) hi]

/-- QSHIFT's operand word has no reserved bit and gives the exponent back (R63). -/
theorem qshiftOperand_word (e : BitVec 8) :
    (e.setWidth 32).extractLsb' 8 24 = 0 ∧ (e.setWidth 32).extractLsb' 0 8 = e := by
  revert e
  decide

/-- The request packet of an instruction decodes to the instruction. -/
theorem decode_encode (i : Instr) : decode (encode i) = .ok i := by
  cases i with
  | qshift e =>
    obtain ⟨hreserved, he⟩ := qshiftOperand_word e
    rw [encode, decode_headerWord (reservedHeaderSet_plain _), decodeOperands, if_pos hreserved, he]
  | dispc relu biasEn a =>
    obtain ⟨hrelu, -, hbias⟩ := flags_headerWord .dispc relu false biasEn
    rw [encode, decode_headerWord (reservedHeaderSet_dispc relu biasEn)]
    simp [argWords, decodeOperands, dispatchArgs, joinAddr_words, hrelu, hbias]
  | disps relu rep biasEn a st =>
    obtain ⟨hrelu, hrep, hbias⟩ := flags_headerWord .disps relu rep biasEn
    rw [encode, decode_headerWord (reservedHeaderSet_disps relu rep biasEn)]
    simp [argWords, strideWords, decodeOperands, dispatchArgs, joinAddr_words, hrelu, hrep, hbias]
  | quant b => exact decode_headerWord (reservedHeaderSet_plain _) [b]
  | qexp b => exact decode_headerWord (reservedHeaderSet_plain _) [b]
  | qnorm b => exact decode_headerWord (reservedHeaderSet_plain _) [b]
  | dshift d => exact decode_headerWord (reservedHeaderSet_plain _) [d]
  | mrot m => exact decode_headerWord (reservedHeaderSet_plain _) [m]
  | munrot m => exact decode_headerWord (reservedHeaderSet_plain _) [m]

/-- A request packet has its op's length (R62). -/
theorem length_encode (i : Instr) : (encode i).length = packetLength i.opCode := by
  cases i <;> rfl

/-- Every op but the two dispatches has a packet of two words (R62). -/
theorem packetLength_of_not_dispatch {op : OpCode} (hc : op ≠ .dispc) (hs : op ≠ .disps) : packetLength op = 2 := by
  cases op <;> simp_all [packetLength]

/-- A request packet has at least its header (R60). -/
theorem encode_ne_nil (i : Instr) : encode i ≠ [] := by
  cases i <;> exact List.cons_ne_nil _ _

end Sys2Proof
end

section
/-! What an op does (`exec`) and what its rule states (`verdict`, R23 and R68). -/

namespace Sys2Proof.Machine

/-- The state after a dispatch has been accepted (R139): both records emitted, the command issued. -/
def accepted (f : Flight) (s : State) : State := issue f (emitTrace (dimsRecord f) (emitTrace (backendRecord f) s))

/-- A dispatch whose rule states a response answers it and changes nothing else (R172). -/
theorem dispatch_of_respond {op : DispatchOp} {relu rep biasEn : Bool} {a : DispatchArgs} {st : Strides} {s : State}
    {r : Response} (h : dispatchVerdict (numModes s) op relu rep biasEn a st = .respond r) :
    dispatch op relu rep biasEn a st s = .next { s with phase := .resp r 0 false } := by
  obtain ⟨hvalid, -⟩ | ⟨hinvalid, heq⟩ := dispatch_cases op relu rep biasEn a st s
  · simp [dispatchVerdict, hvalid] at h
  · obtain rfl : ⟨.invalidArgument, dispatchOpCode op, 0, 0⟩ = r := by simpa [dispatchVerdict, hinvalid] using h
    exact heq

/-- A dispatch whose rule states a command with its records is accepted with them (R139). -/
theorem dispatch_of_forward {op op' : DispatchOp} {relu rep biasEn : Bool} {a : DispatchArgs} {st : Strides} {s : State}
    {records : List TraceRec} {x : Issued}
    (h : dispatchVerdict (numModes s) op relu rep biasEn a st = .forward op' records x) :
    ∃ f : Flight, f.op = op' ∧ f.issued = x ∧ records = [backendRecord f, dimsRecord f] ∧
      dispatch op relu rep biasEn a st s = .next (accepted f s) := by
  obtain ⟨hvalid, f, rfl, heq⟩ | ⟨hinvalid, -⟩ := dispatch_cases op relu rep biasEn a st s
  · simp only [dispatchVerdict, hvalid, if_true, Verdict.forward.injEq] at h
    obtain ⟨rfl, rfl, rfl⟩ := h
    exact ⟨_, rfl, rfl, rfl, heq⟩
  · simp [dispatchVerdict, hinvalid] at h

/-- An op whose rule states a response answers it; nothing else changes but the count of draws. -/
theorem exec_of_respond {i : Instr} {s : State} {r : Response}
    (h : verdict (numModes s) s.draws i = .respond r) :
    exec i s = .next { s with phase := .resp r 0 false, draws := s.draws + drawsUsed i } := by
  cases i with
  | quant b =>
    simp only [verdict] at h
    split at h
    · next hd => cases h; simp [exec, execQuant, hd, drawsUsed, respond, opCodeBits]
    · next hd => cases h; simp [exec, execQuant, hd, drawsUsed, respond, opCodeBits, drawnWord, afterDraw]
  | dshift d =>
    simp only [verdict] at h
    split at h
    · next hd => cases h; simp [exec, execDshift, hd, drawsUsed, respond, opCodeBits]
    · next hd => cases h; simp [exec, execDshift, hd, drawsUsed, raiseStatus, respond, opCodeBits]
  | dispc relu biasEn a => exact dispatch_of_respond h
  | disps relu rep biasEn a st => exact dispatch_of_respond h
  | qexp b => cases h; rfl
  | qnorm b => cases h; rfl
  | qshift e => cases h; rfl
  | mrot m => cases h; rfl
  | munrot m => cases h; rfl

/-- An op whose rule states a command with its records is a dispatch accepted with them. -/
theorem exec_of_forward {i : Instr} {s : State} {op : DispatchOp} {records : List TraceRec} {x : Issued}
    (h : verdict (numModes s) s.draws i = .forward op records x) :
    ∃ f : Flight, f.op = op ∧ f.issued = x ∧ records = [backendRecord f, dimsRecord f] ∧
      exec i s = .next (accepted f s) := by
  cases i with
  | dispc relu biasEn a => exact dispatch_of_forward h
  | disps relu rep biasEn a st => exact dispatch_of_forward h
  | quant b => simp only [verdict] at h; split at h <;> cases h
  | dshift d => simp only [verdict] at h; split at h <;> cases h
  | qexp b => cases h
  | qnorm b => cases h
  | qshift e => cases h
  | mrot m => cases h
  | munrot m => cases h

/-- The rule of any op but the two dispatches states a response. -/
theorem verdict_responds {i : Instr} (hc : i.opCode ≠ .dispc) (hs : i.opCode ≠ .disps) (modes draws : Nat) :
    ∃ r, verdict modes draws i = .respond r := by
  cases i with
  | dispc relu biasEn a => exact absurd rfl hc
  | disps relu rep biasEn a st => exact absurd rfl hs
  | quant b => simp only [verdict]; split <;> exact ⟨_, rfl⟩
  | dshift d => simp only [verdict]; split <;> exact ⟨_, rfl⟩
  | qexp b => exact ⟨_, rfl⟩
  | qnorm b => exact ⟨_, rfl⟩
  | qshift e => exact ⟨_, rfl⟩
  | mrot m => exact ⟨_, rfl⟩
  | munrot m => exact ⟨_, rfl⟩

/-- An op does not depend on the phase it is run in, and leaves another. -/
theorem exec_ignores_phase (i : Instr) (s : State) (p : Phase) : exec i { s with phase := p } = exec i s := by
  cases i <;> rfl

/-- Nor does what a whole packet leads to. -/
theorem acceptPacket_ignores_phase (packet : List Word) (s : State) (p : Phase) :
    acceptPacket packet { s with phase := p } = acceptPacket packet s := by
  unfold acceptPacket
  split
  · exact exec_ignores_phase _ s p
  · rfl

/-- An encoded packet runs its instruction. -/
theorem acceptPacket_encode (i : Instr) (s : State) : acceptPacket (encode i) s = exec i s := by
  rw [acceptPacket, decode_encode]

end Sys2Proof.Machine
end

section
/-! Runs of the clocked machine through the parts of a transaction (R25 to R29), at edges at which the QDB moves on. -/

namespace Sys2Proof.Machine

open Sys2Proof.Safety

/-- One step of a run of the QDB. -/
theorem run_step {s t : State} (h : step s = .next t) (k : Nat) : core.run (k + 1) s = core.run k t :=
  run_succ core k s t h

/-! ### A packet is presented (R25) -/

/-- The request port is open, and these words of a packet have been received. -/
def received (s : State) (before : List Word) : Prop := s.phase = .recv before ∨ (s.phase = .idle ∧ before = [])

/-- A step at which the host presents a word and nothing else happens. -/
theorem step_wordEdge {s : State} {before : List Word} {w : Word} {last : Bool} {rest : List Edge}
    (hs : s.inReset = false) (hp : received s before) (hi : s.inbox = wordEdge w last :: rest) :
    step s = moveOn (wordEdge w last) (takeRequestWord (wordEdge w last) before { s with inbox := rest }) := by
  have hports : traceOnPort s.phase = none ∧ commandOnPort s.phase = none := by
    rcases hp with hp | ⟨hp, -⟩ <;> rw [hp] <;> exact ⟨rfl, rfl⟩
  obtain ⟨ht, hc⟩ := hports
  rw [step_running hi rfl hs, aroundAfter_idle ht hc rfl rfl rfl rfl rfl]
  exact congrArg _ (phaseEdge_receiving (s := { s with inbox := rest }) hp rfl)

/-- A whole packet is presented, one word an edge: the run goes on from what its last word leads to. -/
theorem run_packetEdges {p : List Word} (hne : p ≠ []) {s u : State} {before : List Word} {rest : List Edge}
    (hs : s.inReset = false) (hp : received s before) (hi : s.inbox = packetEdges p ++ rest)
    (hu : acceptPacket (before ++ p) { s with inbox := rest } = .next u) (k : Nat) :
    core.run (p.length + k) s = core.run k { u with phase := showNext u.phase } := by
  induction p generalizing s before with
  | nil => exact absurd rfl hne
  | cons w ws ih =>
    have hlen : (w :: ws).length + k = ws.length + k + 1 := Nat.add_right_comm _ 1 k
    rw [hlen]
    cases ws with
    | nil =>
      have hstep : step s = .next { u with phase := showNext u.phase } := by
        rw [step_wordEdge hs hp hi]
        exact (congrArg _ hu).trans (moveOn_next _ u)
      rw [List.length_nil, Nat.zero_add]
      exact run_step hstep k
    | cons w' ws =>
      have hstep : step s = .next { s with inbox := packetEdges (w' :: ws) ++ rest, phase := .recv (before ++ [w]) } := by
        rw [step_wordEdge hs hp hi]
        rfl
      refine (run_step hstep _).trans (ih (List.cons_ne_nil _ _) hs (.inl rfl) rfl ?_)
      rw [← hu, List.append_assoc]
      exact acceptPacket_ignores_phase _ { s with inbox := rest } (.recv (before ++ [w]))

/-- From `IDLE`, the packet of an instruction is presented: the run goes on from the instruction's effect. -/
theorem run_request {i : Instr} {s u : State} {rest : List Edge} (hs : s.inReset = false) (hp : s.phase = .idle)
    (hi : s.inbox = packetEdges (encode i) ++ rest) (hu : exec i { s with inbox := rest } = .next u) (k : Nat) :
    core.run ((encode i).length + k) s = core.run k { u with phase := showNext u.phase } :=
  run_packetEdges (encode_ne_nil i) hs (.inr ⟨hp, rfl⟩) hi ((acceptPacket_encode i _).trans hu) k

/-! ### A response is taken (R26) -/

/-- A step at which the host takes a response word and nothing else happens. -/
theorem step_readyEdge {s : State} {r : Response} {k : Fin 3} {rest : List Edge}
    (hs : s.inReset = false) (hp : s.phase = .resp r k true) (hi : s.inbox = readyEdge :: rest) :
    step s = moveOn readyEdge (.next (takeResponseWord r k { s with inbox := rest })) := by
  have hports : traceOnPort s.phase = none ∧ commandOnPort s.phase = none := by rw [hp]; exact ⟨rfl, rfl⟩
  obtain ⟨ht, hc⟩ := hports
  rw [step_running hi rfl hs, aroundAfter_idle ht hc rfl rfl rfl rfl rfl]
  simp [phaseEdge, hp, readyEdge]

/-- A shown response is delivered when the host takes three words. -/
theorem run_readyEdges {s : State} {r : Response} {rest : List Edge} (hs : s.inReset = false)
    (hp : s.phase = .resp r 0 true) (hi : s.inbox = [readyEdge, readyEdge, readyEdge] ++ rest) :
    core.run 3 s = .next (deliver r { s with inbox := rest }) := by
  have hfirst : step s = .next { s with inbox := [readyEdge, readyEdge] ++ rest, phase := .resp r 1 true } :=
    step_readyEdge hs hp hi
  have hsecond : step { s with inbox := [readyEdge, readyEdge] ++ rest, phase := .resp r 1 true } =
      .next { s with inbox := [readyEdge] ++ rest, phase := .resp r 2 true } :=
    step_readyEdge (s := { s with inbox := [readyEdge, readyEdge] ++ rest, phase := .resp r 1 true }) hs rfl rfl
  have hthird : step { s with inbox := [readyEdge] ++ rest, phase := .resp r 2 true } =
      .next (deliver r { s with inbox := rest }) :=
    step_readyEdge (s := { s with inbox := [readyEdge] ++ rest, phase := .resp r 2 true }) hs rfl rfl
  exact (run_step hfirst 2).trans ((run_step hsecond 1).trans (run_step hthird 0))

/-! ### A dispatch is in flight (R27 to R29) -/

/-- The state with a dispatch in flight, the other agents and the edges to come as given. -/
def inFlight (s : State) (f : Flight) (st : Stage) (r : Around) (edges : List Edge) : State :=
  { s with inbox := edges, around := r, phase := .waitExec f st }

/-- A step while a dispatch waits for its executor: its ports move on. -/
theorem step_inFlight {s : State} {f : Flight} {st : Stage} {r r' : Around} {e : Edge} {rest : List Edge}
    (hs : s.inReset = false) (hr : e.rst = false) (hd : e.doneValid = false)
    (har : aroundAfter e (inFlight s f st r (e :: rest)) = r') :
    step (inFlight s f st r (e :: rest)) =
      moveOn e (.next (inFlight s f (stageAfterEdge e st) r' rest)) := by
  rw [step_running (s := inFlight s f st r (e :: rest)) rfl hr hs, har]
  simp [phaseEdge, inFlight, waitEdge, hd]

/-- The step at which the executor completes it: the response is shown (R28). -/
theorem step_completing {s : State} {f : Flight} {st : Stage} {r r' : Around} {ok : Bool} {err : Word} {rest : List Edge}
    (hs : s.inReset = false) (har : aroundAfter (doneEdge ok err) (inFlight s f st r (doneEdge ok err :: rest)) = r') :
    step (inFlight s f st r (doneEdge ok err :: rest)) = .next { s with
      inbox := rest
      around := r'
      phase := .resp ⟨if ok then .ok else .executorFailure, dispatchOpCode f.op, if ok then 0 else err, 0⟩ 0 true } := by
  rw [step_running (s := inFlight s f st r (doneEdge ok err :: rest)) rfl rfl hs, har]
  simp [phaseEdge, inFlight, waitEdge, doneEdge, quietEdge, moveOn_next, completeDispatch_eq, respond, showNext]

/-- The other agents at an edge at which the host is quiet, nothing becomes visible and the executor is not reset. -/
theorem aroundAfter_quietHost {e : Edge} {s : State} (ha : e.hostAccesses = []) (hv : e.visible = [])
    (hx : e.execRst = false) : aroundAfter e s = completionSide e (writeSide e (portSide e s s.around)) := by
  simp [aroundAfter, hostSide, ha, visibleSide_none hv, resetSide, hx]

/-- An attached sink takes the record on the trace port, and nothing else happens around the QDB. -/
theorem aroundAfter_sinkEdge {s : State} {t : TraceRec} (hs : s.inReset = false) (ht : traceOnPort s.phase = some t)
    (hc : commandOnPort s.phase = none) :
    aroundAfter sinkEdge s = { s.around with sink := s.around.sink ++ [t] } := by
  rw [aroundAfter_quietHost rfl rfl rfl]
  simp [portSide, hs, sinkSide, ht, commandSide, hc, sinkEdge, quietEdge, writeSide, completionSide]

/-- The executor takes the command on the command port, and nothing else happens around the QDB. -/
theorem aroundAfter_commandEdge {s : State} {x : Issued} (hs : s.inReset = false) (ht : traceOnPort s.phase = none)
    (hc : commandOnPort s.phase = some x) : aroundAfter commandEdge s = takeCommand x.cmd s.around := by
  rw [aroundAfter_quietHost rfl rfl rfl]
  simp [portSide, hs, sinkSide, ht, commandSide, hc, commandEdge, quietEdge, writeSide, completionSide]

/-- Where the ports offer nothing, the executor only writes and completes. -/
theorem aroundAfter_executor {e : Edge} {s : State} (ht : traceOnPort s.phase = none) (hc : commandOnPort s.phase = none)
    (ha : e.hostAccesses = []) (hv : e.visible = []) (hx : e.execRst = false) :
    aroundAfter e s = completionSide e (writeSide e s.around) := by
  rw [aroundAfter_quietHost ha hv hx]
  simp [portSide, sinkSide, ht, commandSide, hc]

/-- The other agents once the sink has taken both records of a dispatch. -/
def withRecords (f : Flight) (r : Around) : Around :=
  { r with sink := r.sink ++ [backendRecord f] ++ [dimsRecord f] }

/-- The other agents after a dispatch has been served: the sink has its records, the executor has taken its command, has
written `ws` for its oldest command and has completed it. -/
def served (f : Flight) (ws : List (Addr × Byte)) (ok : Bool) (err : Word) (r : Around) : Around :=
  completionSide (doneEdge ok err) (writeSide (writeEdge ws) (takeCommand f.issued.cmd (withRecords f r)))

/-- The writes of an edge for the oldest command are all recorded with it. -/
theorem withWrites_writeEdge (ws : List (Addr × Byte)) (h : Taken) :
    withWrites (writeEdge ws).execWrites 0 h = ⟨h.cmd, h.wrote ++ ws.map (fun w => (w.1.toNat, w.2))⟩ := by
  have hall : (writeEdge ws).execWrites.filter (fun w => w.slot == 0) = (writeEdge ws).execWrites := by
    rw [List.filter_eq_self]
    intro w hw
    obtain ⟨x, -, rfl⟩ := List.mem_map.1 hw
    rfl
  rw [withWrites, hall]
  simp [writtenCells, writeEdge, Function.comp_def]

/-- What an executor that held nothing has done with a served command, and what the sink has. -/
theorem served_of_idle (f : Flight) (ws : List (Addr × Byte)) (ok : Bool) (err : Word) {r : Around}
    (hx : r.executor = []) :
    (served f ws ok err r).executor = [] ∧
    (served f ws ok err r).completed =
      r.completed ++ [⟨f.issued.cmd, ws.map (fun w => (w.1.toNat, w.2)), ok, err⟩] ∧
    (served f ws ok err r).sink = r.sink ++ [backendRecord f, dimsRecord f] := by
  obtain ⟨hcompleted, -, -, -, -, -, hsink, -, -⟩ := writeSide_frame (writeEdge ws)
    (takeCommand f.issued.cmd (withRecords f r))
  rw [served, completionSide_eq, writeSide_executor, hcompleted, hsink]
  simp [withRecords, hx, withWrites_writeEdge, doneEdge]

/-- A dispatch in flight is served: the run goes on from its response. -/
theorem run_served {s : State} {f : Flight} {ws : List (Addr × Byte)} {ok : Bool} {err : Word} {rest : List Edge}
    (hs : s.inReset = false) (r : Around) (k : Nat) :
    core.run (k + 5) (inFlight s f (.due .backend true) r
      ([sinkEdge, sinkEdge, commandEdge, writeEdge ws, doneEdge ok err] ++ rest)) = core.run k { s with
        inbox := rest
        around := served f ws ok err r
        phase := .resp ⟨if ok then .ok else .executorFailure, dispatchOpCode f.op, if ok then 0 else err, 0⟩ 0 true } := by
  have hbackend := step_inFlight (f := f) (st := .due .backend true)
    (rest := [sinkEdge, commandEdge, writeEdge ws, doneEdge ok err] ++ rest) hs rfl rfl
    (aroundAfter_sinkEdge (s := inFlight s f _ r _) hs rfl rfl)
  have hdims := step_inFlight (f := f) (st := .due .dims true)
    (rest := [commandEdge, writeEdge ws, doneEdge ok err] ++ rest) hs rfl rfl
    (aroundAfter_sinkEdge (s := inFlight s f _ { r with sink := r.sink ++ [backendRecord f] } _) hs rfl rfl)
  have hcommand := step_inFlight (f := f) (st := .due .command true) (rest := [writeEdge ws, doneEdge ok err] ++ rest)
    hs rfl rfl (aroundAfter_commandEdge (s := inFlight s f _ (withRecords f r) _) hs rfl rfl)
  have hwrite := step_inFlight (e := writeEdge ws) (f := f) (st := .taken) (rest := [doneEdge ok err] ++ rest) hs rfl rfl
    (aroundAfter_executor (s := inFlight s f _ (takeCommand f.issued.cmd (withRecords f r)) _) rfl rfl rfl rfl rfl)
  have hdone := step_completing (f := f) (st := .taken) (ok := ok) (err := err) (rest := rest) hs
    (aroundAfter_executor
      (s := inFlight s f _ (writeSide (writeEdge ws) (takeCommand f.issued.cmd (withRecords f r))) _) rfl rfl rfl rfl rfl)
  exact (run_step hbackend _).trans ((run_step hdims _).trans ((run_step hcommand _).trans
    ((run_step hwrite _).trans (run_step hdone k))))

end Sys2Proof.Machine

open Sys2Proof Sys2Proof.Machine Sys2Proof.Safety

/-- Settles O59: two words are presented, the op answers what its rule states, three words are taken. -/
theorem transactionRunsEndToEnd : Obligations.TransactionRunsEndToEnd := by
  intro s i hs hp hc hd hi
  obtain ⟨r, hr⟩ := verdict_responds hc hd (numModes s) s.draws
  have hlen : (encode i).length = 2 := (length_encode i).trans (packetLength_of_not_dispatch hc hd)
  have hrun := run_request hs hp hi (exec_of_respond hr) 3
  rw [hlen] at hrun
  refine ⟨_, r, hrun.trans (run_readyEdges hs rfl (List.append_nil _).symm), hr, rfl, rfl, rfl, ?_⟩
  exact ⟨fun e he => absurd he List.not_mem_nil, hs, rfl⟩

/-- Settles O60: the packet is presented, the dispatch is accepted and served, three words are taken. -/
theorem dispatchRunsEndToEnd : Obligations.DispatchRunsEndToEnd := by
  intro s i relu rep biasEn a st op ok err ws hform hs hp hx hvalid hi
  have hverdict : ∃ records x, verdict (numModes s) s.draws i = .forward op records x := by
    rcases hform with ⟨rfl, rfl⟩ | ⟨rfl, rfl⟩ <;> simp [verdict, dispatchVerdict, hvalid]
  have hlen : (if op = .dispc then 22 else 26) = (encode i).length + 8 := by
    rcases hform with ⟨rfl, rfl⟩ | ⟨rfl, rfl⟩ <;> rfl
  obtain ⟨records, x, hv⟩ := hverdict
  obtain ⟨f, rfl, rfl, rfl, hexec⟩ := exec_of_forward (s := { s with
    inbox := [sinkEdge, sinkEdge, commandEdge, writeEdge ws, doneEdge ok err, readyEdge, readyEdge, readyEdge] }) hv
  obtain ⟨hexecutor, hcompleted, hsink⟩ := served_of_idle f ws ok err hx
  have hrequest := run_request hs hp hi hexec 8
  have hserved := run_served (s := accepted f s) (f := f) (ws := ws) (ok := ok) (err := err)
    (rest := [readyEdge, readyEdge, readyEdge]) hs s.around 3
  have hrun := hrequest.trans (hserved.trans (run_readyEdges hs rfl (List.append_nil _).symm))
  rw [← hlen] at hrun
  refine ⟨_, f.issued, _, hrun, hv, ?_, hsink, rfl, hexecutor, hcompleted, rfl, rfl, ?_⟩
  · simp [accepted]
  · exact ⟨fun e he => absurd he List.not_mem_nil, hs, rfl⟩
end

section
/-! One rising edge by phase (R23 to R29): what the QDB's side of it is, said once for each phase. -/

namespace Sys2Proof.Machine

/-- Where the QDB does not move on, the edge's transfers are the whole step (R30). -/
theorem moveOn_of_not_advance {e : Edge} (h : e.advance = false) (r : Result) : moveOn e r = r := by
  cases r <;> simp [moveOn, h]

/-- While no word is presented, the open request port takes none (R25). -/
theorem phaseEdge_gap {e : Edge} {s : State} {before : List Word} (h : received s before) (hv : e.reqValid = false) :
    phaseEdge e s = .next s := by
  rcases h with h | ⟨h, -⟩ <;> simp [phaseEdge, h, hv]

/-- A word that is not the last of its packet is collected (R25). -/
theorem phaseEdge_word {e : Edge} {s : State} {before : List Word} (h : received s before) (hv : e.reqValid = true)
    (hl : e.reqLast = false) : phaseEdge e s = .next { s with phase := .recv (before ++ [e.reqData]) } := by
  rw [phaseEdge_receiving h hv]
  simp [takeRequestWord, hl]

/-- With its last word the packet has arrived (R23). -/
theorem phaseEdge_lastWord {e : Edge} {s : State} {before : List Word} (h : received s before) (hv : e.reqValid = true)
    (hl : e.reqLast = true) : phaseEdge e s = acceptPacket (before ++ [e.reqData]) s := by
  rw [phaseEdge_receiving h hv]
  simp [takeRequestWord, hl]

/-- A completion ends the wait (R23, R173). -/
theorem phaseEdge_completion {e : Edge} {s : State} {f : Flight} {st : Stage} (h : s.phase = .waitExec f st)
    (hd : e.doneValid = true) :
    phaseEdge e s = .next (respond (dispatchOpCode f.op) (if e.doneOk then .ok else .executorFailure)
      (if e.doneOk then 0 else e.doneErr) 0 s) := by
  simp [phaseEdge, h, waitEdge, hd, completeDispatch_eq]

/-- Without a completion the QDB waits on, and its ports move (R27, R29). -/
theorem phaseEdge_waiting {e : Edge} {s : State} {f : Flight} {st : Stage} (h : s.phase = .waitExec f st)
    (hd : e.doneValid = false) : phaseEdge e s = .next { s with phase := .waitExec f (stageAfterEdge e st) } := by
  simp [phaseEdge, h, waitEdge, hd]

/-- After its command is taken, a dispatch waits unchanged (R180). -/
theorem phaseEdge_taken {e : Edge} {s : State} {f : Flight} (h : s.phase = .waitExec f .taken)
    (hd : e.doneValid = false) : phaseEdge e s = .next s := by
  have hstay : stageAfterEdge e .taken = .taken := rfl
  rw [phaseEdge_waiting h hd, hstay, ← h]

/-- A shown word that is ready to be taken is taken (R26). -/
theorem phaseEdge_taking {e : Edge} {s : State} {r : Response} {k : Fin 3} {shown : Bool}
    (h : s.phase = .resp r k shown) (ht : shown = true ∧ e.rspReady = true) :
    phaseEdge e s = .next (takeResponseWord r k s) := by
  obtain ⟨hshown, hready⟩ := ht
  simp [phaseEdge, h, hshown, hready]

/-- Otherwise the response is held (R26). -/
theorem phaseEdge_holding {e : Edge} {s : State} {r : Response} {k : Fin 3} {shown : Bool}
    (h : s.phase = .resp r k shown) (ht : ¬ (shown = true ∧ e.rspReady = true)) : phaseEdge e s = .next s := by
  simp [phaseEdge, h, ht]

/-- The state in which the QDB's side of an edge begins: the edge is consumed and the other agents have acted (R8). -/
abbrev afterOthers (s : State) (e : Edge) (rest : List Edge) : State :=
  { s with inbox := rest, around := aroundAfter e s }

/-- A step at an edge without reset, from what the QDB's side of it leads to. -/
theorem step_of_phaseEdge {s u : State} {e : Edge} {rest : List Edge} (h : s.inbox = e :: rest) (hr : e.rst = false)
    (hs : s.inReset = false) (hu : phaseEdge e (afterOthers s e rest) = .next u) :
    step s = .next { u with phase := if e.advance then showNext u.phase else u.phase } := by
  rw [step_running h hr hs, hu, moveOn_next]

/-- A step at an edge without reset, where what the QDB's side leads to has nothing to be shown. -/
theorem step_of_phaseEdge_fixed {s u : State} {e : Edge} {rest : List Edge} (h : s.inbox = e :: rest)
    (hr : e.rst = false) (hs : s.inReset = false)
    (hu : phaseEdge e (afterOthers s e rest) = .next u) (hp : showNext u.phase = u.phase) :
    step s = .next u := by
  rw [step_of_phaseEdge h hr hs hu, hp, ite_self]

/-- The step that takes a packet's last word. -/
theorem step_lastWord {s : State} {e : Edge} {rest : List Edge} {before : List Word} {i : Instr}
    (h : s.inbox = e :: rest) (hr : e.rst = false) (hs : s.inReset = false) (hp : received s before)
    (hv : e.reqValid = true) (hl : e.reqLast = true) (hd : decode (before ++ [e.reqData]) = .ok i) :
    step s = moveOn e (exec i (afterOthers s e rest)) := by
  rw [step_running h hr hs,
    phaseEdge_lastWord (s := afterOthers s e rest) hp hv hl, acceptPacket, hd]

end Sys2Proof.Machine

open Sys2Proof Sys2Proof.Machine Sys2Proof.Safety

/-- Settles O34: the last word is taken, and the packet runs what it decodes to. -/
theorem stepRunsDecodedInstruction : Obligations.StepRunsDecodedInstruction :=
  fun _ _ _ _ _ h hr hs hp hv hl hd => step_lastWord h hr hs hp hv hl hd

/-- Settles O48: each field and each port by evaluation. -/
theorem resetStateIsIdle : Obligations.ResetStateIsIdle :=
  ⟨rfl, rfl, rfl, rfl, rfl, rfl, rfl, rfl, rfl, rfl, rfl⟩

/-- Settles O56: no response, no command, no record and no stored byte, and nothing on loan in `IDLE`. -/
theorem resetMeetsInvariant : Obligations.ResetMeetsInvariant where
  responsesOk _ h := absurd h List.not_mem_nil
  commandsOk _ h := absurd h List.not_mem_nil
  tracesOk := ⟨[], rfl, rfl⟩
  phaseFits := rfl
  resetIdle _ := rfl
  memoryOk := ⟨List.Pairwise.nil, fun _ h => absurd h List.not_mem_nil⟩
  pendingOk _ h := absurd h List.not_mem_nil
end

section
/-! The clocked machine against the transaction machine (R23): the QDB's side of an edge at transaction level. -/

namespace Sys2Proof.Machine

/-- What an op does, by what its rule states: the response, or the dispatch accepted with its records. -/
theorem exec_cases (i : Instr) (s : State) :
    (∃ r, verdict (numModes s) s.draws i = .respond r ∧
      exec i s = .next { s with phase := .resp r 0 false, draws := s.draws + drawsUsed i }) ∨
    (∃ f : Flight, verdict (numModes s) s.draws i = .forward f.op [backendRecord f, dimsRecord f] f.issued ∧
      exec i s = .next (accepted f s)) := by
  cases hv : verdict (numModes s) s.draws i with
  | respond r => exact .inl ⟨r, rfl, exec_of_respond hv⟩
  | forward op records x =>
    obtain ⟨f, rfl, rfl, rfl, hexec⟩ := exec_of_forward hv
    exact .inr ⟨f, rfl, hexec⟩

/-! ### The view of a state -/

@[simp] theorem foldPhase_idle : foldPhase .idle = .idle := rfl
@[simp] theorem foldPhase_recv (ws : List Word) : foldPhase (.recv ws) = .idle := rfl
@[simp] theorem foldPhase_waitExec (f : Flight) (st : Stage) : foldPhase (.waitExec f st) = .waitExec f.op := rfl
@[simp] theorem foldPhase_resp (r : Response) (k : Fin 3) (shown : Bool) : foldPhase (.resp r k shown) = .resp r := rfl

/-- What the ports show is no matter of the transaction level (R22). -/
@[simp] theorem foldPhase_showNext (p : Phase) : foldPhase (showNext p) = foldPhase p := by
  cases p with
  | waitExec f st => cases st <;> rfl
  | idle => rfl
  | recv ws => rfl
  | resp r k shown => rfl

/-- While words of a packet are received the phase is `IDLE` (R22). -/
theorem foldPhase_received {s : State} {before : List Word} (h : received s before) : foldPhase s.phase = .idle := by
  rcases h with h | ⟨h, -⟩ <;> rw [h] <;> rfl

/-! ### Rows of the transition table (R23) -/

/-- A completion outside `WAIT_EXEC` is discarded (R28). -/
theorem completionEvent_discarded (e : Edge) {v : TState} (h : ∀ op, v.phase ≠ .waitExec op) :
    (completionEvent e).foldl transactionStep v = v := by
  unfold completionEvent
  split
  · cases hp : v.phase with
    | waitExec op => exact absurd hp (h op)
    | idle => simp [transactionStep, hp]
    | resp r => simp [transactionStep, hp]
  · rfl

/-- A packet whose op responds (R23, rows 2 and 3). -/
theorem presented_of_respond {p : List Word} {i : Instr} {s : State} {r : Response} (hd : decode p = .ok i)
    (hv : verdict (numModes s) s.draws i = .respond r) :
    presented p (foldState s) = { foldState s with phase := .resp r, draws := s.draws + drawsUsed i } := by
  have hv : verdict ((foldState s).modesPred.val + 1) (foldState s).draws i = .respond r := hv
  simp only [presented, hd, hv]
  rfl

/-- A packet whose op is forwarded (R23, row 4). -/
theorem presented_of_forward {p : List Word} {i : Instr} {s : State} {op : DispatchOp} {records : List TraceRec}
    {x : Issued} (hd : decode p = .ok i) (hv : verdict (numModes s) s.draws i = .forward op records x) :
    presented p (foldState s) =
      { foldState s with phase := .waitExec op, traced := s.traced ++ records, issued := s.issued ++ [x] } := by
  have hv : verdict ((foldState s).modesPred.val + 1) (foldState s).draws i = .forward op records x := hv
  simp only [presented, hd, hv]
  rfl

/-- A packet that arrives is the packet presented (R23, rows 1 to 4). -/
theorem acceptPacket_refines {p : List Word} {s t : State} (h : acceptPacket p s = .next t) :
    foldState t = presented p (foldState s) := by
  obtain ⟨i, hd, ha⟩ | ⟨x, hd, ha⟩ := acceptPacket_cases p s
  · obtain ⟨r, hv, hexec⟩ | ⟨f, hv, hexec⟩ := exec_cases i s
    · cases hexec.symm.trans (ha.symm.trans h)
      rw [presented_of_respond hd hv]
      rfl
    · cases hexec.symm.trans (ha.symm.trans h)
      rw [presented_of_forward hd hv]
      simp [foldState, accepted]
  · cases ha.symm.trans h
    simp [foldState, presented, hd, echoedOp]

/-! ### The events of an edge without reset, phase by phase -/

/-- The events that are no completion, while words of a packet are received. -/
def packetEvent (e : Edge) (before : List Word) : List TEvent :=
  if e.reqValid && e.reqLast then [.present (before ++ [e.reqData])] else []

/-- The events that are no completion, while a response is to be taken. -/
def takeEvent (e : Edge) (k : Fin 3) (shown : Bool) : List TEvent :=
  if shown && e.rspReady && k == 2 then [.take] else []

theorem edgeEvents_received {e : Edge} {s : State} {before : List Word} (hr : e.rst = false) (hs : s.inReset = false)
    (h : received s before) : edgeEvents e s = completionEvent e ++ packetEvent e before := by
  rcases h with h | ⟨h, rfl⟩ <;> simp [edgeEvents, hr, hs, h, packetEvent]

theorem edgeEvents_waiting {e : Edge} {s : State} {f : Flight} {st : Stage} (hr : e.rst = false)
    (hs : s.inReset = false) (h : s.phase = .waitExec f st) : edgeEvents e s = completionEvent e := by
  simp [edgeEvents, hr, hs, h]

theorem edgeEvents_responding {e : Edge} {s : State} {r : Response} {k : Fin 3} {shown : Bool} (hr : e.rst = false)
    (hs : s.inReset = false) (h : s.phase = .resp r k shown) :
    edgeEvents e s = completionEvent e ++ takeEvent e k shown := by
  simp [edgeEvents, hr, hs, h, takeEvent]

/-! ### The QDB's side of an edge, phase by phase -/

/-- While words are received, the packet presented is the one event, if it is whole. -/
theorem received_refines {e : Edge} {s u : State} {before : List Word} (h : received s before)
    (hu : phaseEdge e s = .next u) : foldState u = (packetEvent e before).foldl transactionStep (foldState s) := by
  have hidle : (foldState s).phase = .idle := foldPhase_received h
  cases hv : e.reqValid with
  | false =>
    cases (phaseEdge_gap h hv).symm.trans hu
    simp [packetEvent, hv]
  | true =>
    cases hl : e.reqLast with
    | false =>
      cases (phaseEdge_word h hv hl).symm.trans hu
      simp [packetEvent, hv, hl, foldState, foldPhase_received h]
    | true =>
      rw [phaseEdge_lastWord h hv hl] at hu
      simp [packetEvent, hv, hl, transactionStep, hidle, acceptPacket_refines hu]

/-- While a dispatch is in flight, its completion is the one event. -/
theorem waiting_refines {e : Edge} {s u : State} {f : Flight} {st : Stage} (h : s.phase = .waitExec f st)
    (hu : phaseEdge e s = .next u) : foldState u = (completionEvent e).foldl transactionStep (foldState s) := by
  have hphase : foldPhase s.phase = .waitExec f.op := by rw [h]; rfl
  cases hd : e.doneValid with
  | false =>
    cases (phaseEdge_waiting h hd).symm.trans hu
    simp [completionEvent, hd, foldState, hphase]
  | true =>
    cases (phaseEdge_completion h hd).symm.trans hu
    cases hok : e.doneOk <;> simp [completionEvent, hd, hok, transactionStep, foldState, hphase]

/-- While a response is to be taken, the taking of its last word is the one event. -/
theorem responding_refines {e : Edge} {s u : State} {r : Response} {k : Fin 3} {shown : Bool}
    (h : s.phase = .resp r k shown) (hu : phaseEdge e s = .next u) :
    foldState u = (takeEvent e k shown).foldl transactionStep (foldState s) := by
  have hphase : foldPhase s.phase = .resp r := by rw [h]; rfl
  by_cases ht : shown = true ∧ e.rspReady = true
  · cases (phaseEdge_taking h ht).symm.trans hu
    by_cases hk : k = 2
    · simp [takeEvent, ht, hk, takeResponseWord, transactionStep, foldState, hphase]
    · simp [takeEvent, ht, hk, takeResponseWord, foldState, hphase]
  · cases (phaseEdge_holding h ht).symm.trans hu
    have hnone : takeEvent e k shown = [] := if_neg (by simp_all)
    rw [hnone, List.foldl_nil]

/-- The QDB's side of an edge without reset is the transition table applied to the edge's events. -/
theorem phaseEdge_refines {e : Edge} {s u : State} (hr : e.rst = false) (hs : s.inReset = false)
    (hu : phaseEdge e s = .next u) : foldState u = (edgeEvents e s).foldl transactionStep (foldState s) := by
  have receiving : ∀ before, received s before →
      foldState u = (edgeEvents e s).foldl transactionStep (foldState s) := fun before h => by
    have hstale : ∀ op, (foldState s).phase ≠ .waitExec op := by simp [foldState, foldPhase_received h]
    rw [edgeEvents_received hr hs h, List.foldl_append, completionEvent_discarded e hstale]
    exact received_refines h hu
  cases hp : s.phase with
  | idle => exact receiving [] (.inr ⟨hp, rfl⟩)
  | recv ws => exact receiving ws (.inl hp)
  | waitExec f st =>
    rw [edgeEvents_waiting hr hs hp]
    exact waiting_refines hp hu
  | resp r k shown =>
    have hstale : ∀ op, (foldState s).phase ≠ .waitExec op := by simp [foldState, hp]
    rw [edgeEvents_responding hr hs hp, List.foldl_append, completionEvent_discarded e hstale]
    exact responding_refines hp hu

end Sys2Proof.Machine

open Sys2Proof Sys2Proof.Machine Sys2Proof.Safety

/-- Settles O54: a reset ends the transaction; at any other edge each phase takes the rows its events have. -/
theorem edgesRefineTransactions : Obligations.EdgesRefineTransactions := by
  intro s t e rest h ht
  cases hr : e.rst with
  | true =>
    cases (step_reset h hr).symm.trans ht
    simp [edgeEvents, hr, transactionStep, foldState]
  | false =>
    cases hs : s.inReset with
    | true =>
      cases (step_release h hr hs).symm.trans ht
      simp [edgeEvents, hr, hs, transactionStep, foldState]
    | false =>
      obtain ⟨u, hu, -⟩ := phaseEdge_next e (afterOthers s e rest)
      cases (step_of_phaseEdge h hr hs hu).symm.trans ht
      have hview : foldState { u with phase := if e.advance then showNext u.phase else u.phase } = foldState u := by
        cases e.advance <;> simp [foldState]
      rw [hview]
      exact phaseEdge_refines (s := afterOthers s e rest) hr hs hu
end

section
/-! The request port (R25, R44): a placed packet runs, and words are taken while the port is open. -/

namespace Sys2Proof

/-- A word is joined again from its four bytes (R44). -/
theorem wordOfBytes_bytes (w : Word) :
    wordOfBytes (w.extractLsb' 0 8) (w.extractLsb' 8 8) (w.extractLsb' 16 8) (w.extractLsb' 24 8) = w := by
  apply BitVec.eq_of_getLsbD_eq
  intro i hi
  simp only [wordOfBytes, BitVec.getLsbD_or, BitVec.getLsbD_shiftLeft, BitVec.getLsbD_setWidth,
    BitVec.getLsbD_extractLsb']
  interval_cases i <;> simp

/-- The byte view of a packet loses nothing (R44). -/
theorem packetOfBytes_bytesOfPacket (p : List Word) : packetOfBytes (bytesOfPacket p) = some p := by
  induction p with
  | nil => rfl
  | cons w p ih =>
    have hbytes : bytesOfPacket (w :: p) = wordBytes w ++ bytesOfPacket p := rfl
    simp [hbytes, wordBytes, packetOfBytes, ih, wordOfBytes_bytes]

/-- A table word is decoded as the packet it stands for. -/
theorem decodeTableWord_eq_some {nbits w : Nat} {i : Instr} (h : decodeTableWord nbits w = some i) :
    decode (tablePacket nbits w) = .ok i := by
  rw [decodeTableWord, decodeBytes, packetOfBytes_bytesOfPacket] at h
  simp only at h
  split at h
  · next hd => cases h; exact hd
  · cases h

namespace Machine

/-- A placed packet waits for its last word. -/
theorem received_phaseBeforeLast {s : State} {p : List Word} (h : s.phase = phaseBeforeLast p) :
    received s p.dropLast := by
  match p with
  | [] => exact .inr ⟨h, rfl⟩
  | [_] => exact .inr ⟨h, rfl⟩
  | _ :: _ :: _ => exact .inl h

/-- While words of a packet are received, trace and command port present nothing. -/
theorem ports_of_received {s : State} {before : List Word} (h : received s before) :
    traceOnPort s.phase = none ∧ commandOnPort s.phase = none := by
  rcases h with h | ⟨h, -⟩ <;> rw [h] <;> exact ⟨rfl, rfl⟩

/-- The step after placing a packet runs what it decodes to. -/
theorem step_withPacket {p : List Word} {i : Instr} (h : decode p = .ok i) (s : State) :
    step (withPacket s p) = exec i { s with inReset := false, phase := phaseBeforeLast p, loan := none } := by
  have hne : p ≠ [] := by rintro rfl; cases h
  have hp : received (withPacket s p) p.dropLast := received_phaseBeforeLast rfl
  have hwhole : p.dropLast ++ [p.getLastD 0] = p := by
    rw [List.getLastD_eq_getLast?, List.getLast?_eq_some_getLast hne, Option.getD_some, List.dropLast_append_getLast]
  obtain ⟨ht, hc⟩ := ports_of_received hp
  rw [step_lastWord rfl rfl rfl hp rfl rfl (by rw [← h]; exact congrArg decode hwhole), moveOn_of_not_advance rfl,
    afterOthers, aroundAfter_idle ht hc rfl rfl rfl rfl rfl]
  rfl

/-- The request inputs replaced by others. -/
def withRequest (e : Edge) (v l : Bool) (w : Word) : Edge := { e with reqValid := v, reqData := w, reqLast := l }

/-- With the request port closed, the request inputs do not reach the phase's transfers. -/
theorem phaseEdge_withRequest {s : State} (h : requestOpen s.phase = false) (e : Edge) (v l : Bool) (w : Word) :
    phaseEdge (withRequest e v l w) s = phaseEdge e s := by
  unfold phaseEdge
  cases hp : s.phase with
  | idle => simp [hp, requestOpen] at h
  | recv ws => simp [hp, requestOpen] at h
  | waitExec f st => rfl
  | resp r k shown => rfl

/-- With the request port closed, in reset or by the phase, the request inputs have no effect (R25). -/
theorem clockEdge_withRequest {e : Edge} {s : State} (h : (ports e.rst s).reqReady = false) (v l : Bool) (w : Word) :
    clockEdge (withRequest e v l w) s = clockEdge e s := by
  cases hr : e.rst with
  | true => rw [clockEdge_reset s hr, clockEdge_reset s (by exact hr)]; rfl
  | false =>
    cases hs : s.inReset with
    | true => rw [clockEdge_release hr hs, clockEdge_release (by exact hr) hs]; rfl
    | false =>
      have hclosed : requestOpen s.phase = false := by simpa [ports, hr, hs] using h
      rw [clockEdge_running hr hs, clockEdge_running (by exact hr) hs]
      exact congrArg _ (phaseEdge_withRequest (s := { s with around := aroundAfter e s }) hclosed e v l w)

end Machine

end Sys2Proof

open Sys2Proof Sys2Proof.Machine Sys2Proof.Safety

/-- Settles O35: the byte view is lossless, and the edge placed presents the packet's last word and nothing else. -/
theorem placedInstructionRuns : Obligations.PlacedInstructionRuns :=
  fun s _ _ _ h => step_withPacket (decodeTableWord_eq_some h) s

/-- Settles O39: the port is open while words are received; closed, it hides the request inputs. -/
theorem requestPortTakesWordsWhileOpen : Obligations.RequestPortTakesWordsWhileOpen := by
  refine ⟨fun s hs => ?_, fun s e rest v l w h hclosed => ?_,
    fun s e rest before h hr hs hp => ⟨fun hv hl => ?_, fun hv => ?_⟩⟩
  · cases hp : s.phase <;> simp [ports, hs, hp, requestOpen]
  · rw [step_of_inbox h, step_of_inbox rfl]
    exact (clockEdge_withRequest (s := { s with inbox := rest }) hclosed v l w).symm
  · exact step_of_phaseEdge_fixed h hr hs
      (phaseEdge_word (s := afterOthers s e rest) hp hv hl) rfl
  · have hfixed : showNext s.phase = s.phase := by rcases hp with hp | ⟨hp, -⟩ <;> rw [hp] <;> rfl
    exact step_of_phaseEdge_fixed h hr hs
      (phaseEdge_gap (s := afterOthers s e rest) hp hv) hfixed
end

section
/-! The response port, the completion, and the ports of a dispatch in flight (R26 to R29). -/

namespace Sys2Proof.Machine

/-! ### What sink and executor have after an edge -/

/-- A completion of the executor takes its oldest command, a reset all of them; writes keep them. -/
theorem aroundAfter_commands (e : Edge) (s : State) :
    (aroundAfter e s).executor.map Taken.cmd =
      if e.execRst then []
      else if e.doneValid then ((portSide e s s.around).executor.map Taken.cmd).tail
      else (portSide e s s.around).executor.map Taken.cmd := by
  have hwrites : (afterWrites e s).executor.map Taken.cmd = (portSide e s s.around).executor.map Taken.cmd := by
    obtain ⟨hhost, -⟩ := hostSide_frame e s.loan s.around
    obtain ⟨-, -, -, -, -, -, -, hcommands, -⟩ := writeSide_frame e (portSide e s (hostSide e s.loan s.around))
    rw [afterWrites, hcommands, portSide_executor_congr e s hhost]
  rw [aroundAfter_eq, resetSide_eq, completionSide_eq, visibleSide, ← hwrites]
  cases e.execRst <;> cases e.doneValid <;> simp

/-- Without reset, the executor holds what it held and the command it takes from the port (R27). -/
theorem portSide_commands {e : Edge} {s : State} (hr : e.rst = false) (hs : s.inReset = false) :
    (portSide e s s.around).executor.map Taken.cmd = s.around.executor.map Taken.cmd ++
      if e.cmdReady then (commandOnPort s.phase).toList.map (fun x => x.cmd) else [] := by
  have hrun : portSide e s s.around = commandSide e s.phase (sinkSide e s.phase s.around) := by simp [portSide, hr, hs]
  rw [hrun, commandSide_executor, sinkSide_eq]
  cases e.cmdReady <;> simp

/-- In reset the executor takes nothing (R200). -/
theorem portSide_of_reset {e : Edge} {s : State} (h : e.rst = true ∨ s.inReset = true) (r : Around) :
    portSide e s r = r := by
  rcases h with h | h <;> simp [portSide, h]

/-- The executor's taking a command is nothing to the sink. -/
@[simp] theorem commandSide_sink (e : Edge) (p : Phase) (r : Around) : (commandSide e p r).sink = r.sink := by
  unfold commandSide
  split
  · split <;> simp
  · rfl

/-- Without reset, the sink has what it had and the record it takes from the port (R29). -/
theorem aroundAfter_sink {e : Edge} {s : State} (hr : e.rst = false) (hs : s.inReset = false) :
    (aroundAfter e s).sink = s.around.sink ++ (if e.sinkTakes then (traceOnPort s.phase).toList else []) := by
  obtain ⟨-, -, -, -, hhost, -⟩ := hostSide_frame e s.loan s.around
  obtain ⟨-, -, -, -, -, -, hwrites, -, -⟩ := writeSide_frame e (portSide e s (hostSide e s.loan s.around))
  have hrun : ∀ r, portSide e s r = commandSide e s.phase (sinkSide e s.phase r) := by simp [portSide, hr, hs]
  rw [aroundAfter_eq, resetSide_eq, completionSide_eq, visibleSide, afterWrites, hwrites, hrun, commandSide_sink,
    sinkSide_eq, hhost]

/-! ### The step of a dispatch in flight -/

/-- At an edge without reset or completion the ports of a dispatch in flight move, then show what is due. -/
theorem step_waiting {s : State} {e : Edge} {rest : List Edge} {f : Flight} {st : Stage} (h : s.inbox = e :: rest)
    (hr : e.rst = false) (hs : s.inReset = false) (hd : e.doneValid = false) (hp : s.phase = .waitExec f st) :
    step s = .next { s with
      inbox := rest
      around := aroundAfter e s
      phase :=
        if e.advance then showNext (.waitExec f (stageAfterEdge e st)) else .waitExec f (stageAfterEdge e st) } :=
  step_of_phaseEdge h hr hs (phaseEdge_waiting (s := afterOthers s e rest) hp hd)

/-- An item due and not shown stays due at an edge (R29). -/
theorem stageAfterEdge_due (e : Edge) (item : PortItem) : stageAfterEdge e (.due item false) = .due item false := by
  cases item <;> rfl

/-- A shown command is taken or stays (R27). -/
theorem stageAfterEdge_command (e : Edge) :
    stageAfterEdge e (.due .command true) = if e.cmdReady then .taken else .due .command true := rfl

/-- What is due is shown from now on exactly if the QDB moves on (R30). -/
theorem showNext_due (a : Bool) (f : Flight) (item : PortItem) :
    (if a then showNext (.waitExec f (.due item false)) else .waitExec f (.due item false)) =
      .waitExec f (.due item a) := by
  cases a <;> rfl

/-- What is not shown is on no port. -/
theorem ports_of_due (f : Flight) (item : PortItem) :
    traceOnPort (.waitExec f (.due item false)) = none ∧ commandOnPort (.waitExec f (.due item false)) = none := by
  cases item <;> exact ⟨rfl, rfl⟩

/-- The step at which an item is due and not shown. -/
theorem step_due {s : State} {e : Edge} {rest : List Edge} {f : Flight} {item : PortItem} (h : s.inbox = e :: rest)
    (hr : e.rst = false) (hs : s.inReset = false) (hd : e.doneValid = false)
    (hp : s.phase = .waitExec f (.due item false)) :
    step s = .next { s with inbox := rest, around := aroundAfter e s, phase := .waitExec f (.due item e.advance) } := by
  rw [step_waiting h hr hs hd hp, stageAfterEdge_due, showNext_due]

/-- A record on the trace port is there for one cycle: the sink takes it or it is lost; the next item is due (R29). -/
theorem record_lasts_one_cycle {s : State} {e : Edge} {rest : List Edge} {f : Flight} {item next : PortItem}
    {record : TraceRec} (h : s.inbox = e :: rest) (hr : e.rst = false) (hs : s.inReset = false)
    (hd : e.doneValid = false) (hp : s.phase = .waitExec f (.due item true))
    (htrace : traceOnPort (.waitExec f (.due item true)) = some record)
    (hcommand : commandOnPort (.waitExec f (.due item true)) = none)
    (hnext : stageAfterEdge e (.due item true) = .due next false) :
    (ports false s).trc = some (traceData record) ∧ (ports false s).cmd = none ∧
    (aroundAfter e s).sink = s.around.sink ++ (if e.sinkTakes then [record] else []) ∧
    step s = .next { s with
      inbox := rest, around := aroundAfter e s, phase := .waitExec f (.due next e.advance) } := by
  refine ⟨?_, ?_, ?_, ?_⟩
  · simp [ports, hs, hp, htrace]
  · simp [ports, hs, hp, hcommand]
  · simp [aroundAfter_sink hr hs, hp, htrace]
  · rw [step_waiting h hr hs hd hp, hnext, showNext_due]

end Sys2Proof.Machine

open Sys2Proof Sys2Proof.Machine Sys2Proof.Safety

/-- Settles O40: a shown word that is ready to be taken is taken; otherwise the response is held. -/
theorem responseIsDeliveredInOrder : Obligations.ResponseIsDeliveredInOrder := by
  intro s e rest r k shown h hr hs hp
  refine ⟨?_, ?_⟩
  · cases shown <;> simp [ports, hs, hp, responseOnPort]
  · by_cases ht : shown = true ∧ e.rspReady = true
    · rw [if_pos ht,
        step_of_phaseEdge h hr hs (phaseEdge_taking (s := afterOthers s e rest) hp ht)]
      by_cases hk : k = 2
      · simp [takeResponseWord, hk, deliver, showNext]
      · cases ha : e.advance <;> simp [takeResponseWord, hk, showNext]
    · rw [if_neg ht,
        step_of_phaseEdge h hr hs (phaseEdge_holding (s := afterOthers s e rest) hp ht)]
      cases ha : e.advance <;> simp [hp, showNext]

/-- Settles O41: the completion responds, and a response leaves the rest of the state. -/
theorem completionEndsTheWait : Obligations.CompletionEndsTheWait := by
  intro s e rest f st h hr hs hp hd
  refine ⟨_, step_of_phaseEdge h hr hs
    (phaseEdge_completion (s := afterOthers s e rest) hp hd), ?_, ?_⟩
  · cases e.advance <;> rfl
  · exact ⟨rfl, rfl, rfl, rfl, rfl, rfl, rfl, hs, rfl⟩

/-- Settles O45: the three stages of a command, and what the executor takes from its port. -/
theorem commandIsStableUntilTaken : Obligations.CommandIsStableUntilTaken := by
  intro s e rest f h hr hs hd
  refine ⟨fun hp => ⟨?_, step_due h hr hs hd hp⟩, fun hp => ⟨?_, ?_, ?_, ?_⟩, fun hp => ⟨?_, ?_⟩⟩
  · simp [ports, hs, hp, commandOnPort]
  · simp [ports, hs, hp, commandOnPort]
  · simp [ports, hs, hp, commandOnPort, selectOnPort]
  · rw [aroundAfter_commands, portSide_commands hr hs, hd, hp]
    rfl
  · rw [step_waiting h hr hs hd hp, stageAfterEdge_command]
    cases e.cmdReady <;> cases e.advance <;> rfl
  · simp [ports, hs, hp, commandOnPort]
  · exact step_of_phaseEdge_fixed h hr hs
      (phaseEdge_taken (s := afterOthers s e rest) hp hd) (by rw [hp]; rfl)

/-- Settles O46: what is due is shown with `advance`; a record shown is gone at the next edge. -/
theorem traceRecordsLastOneCycle : Obligations.TraceRecordsLastOneCycle := by
  intro s e rest f h hr hs hd
  refine ⟨fun item hp => ?_, fun hp => record_lasts_one_cycle h hr hs hd hp rfl rfl rfl,
    fun hp => record_lasts_one_cycle h hr hs hd hp rfl rfl rfl⟩
  obtain ⟨htrace, hcommand⟩ := ports_of_due f item
  refine ⟨?_, ?_, ?_, step_due h hr hs hd hp⟩
  · simp [ports, hs, hp, htrace]
  · simp [ports, hs, hp, hcommand]
  · simp [aroundAfter_sink hr hs, hp, htrace]
end

section
/-! What no step depends on or changes: the other agents (R21, R40), `M` (R31), and a duty kept (R203). -/

namespace Sys2Proof.Machine

/-! ### The other agents' inputs (R21, R40) -/

/-- An edge with the inputs that pass no port of the QDB, and the sink's, replaced by others. -/
def withOthers (e : Edge) (b : Bool) (accesses : List HostAccess) (writes : List ExecWrite) (seen : List Nat)
    (execRst : Bool) : Edge :=
  { e with sinkTakes := b, hostAccesses := accesses, execRst := execRst, execWrites := writes, visible := seen }

/-- These inputs do not reach the QDB: an edge with others differs on the other agents' side only. -/
theorem clockEdge_withOthers (e : Edge) (s : State) (b : Bool) (accesses : List HostAccess) (writes : List ExecWrite)
    (seen : List Nat) (execRst : Bool) :
    ∃ (t : State) (r : Around), clockEdge e s = .next t ∧
      clockEdge (withOthers e b accesses writes seen execRst) s = .next { t with around := r } := by
  cases hr : e.rst with
  | true => exact ⟨_, _, clockEdge_reset s hr, clockEdge_reset s hr⟩
  | false =>
    cases hs : s.inReset with
    | true => exact ⟨_, _, clockEdge_release hr hs, clockEdge_release hr hs⟩
    | false =>
      obtain ⟨u, hu, -⟩ := phaseEdge_next e { s with around := aroundAfter e s }
      have hu' := phaseEdge_ignores_around hu (aroundAfter (withOthers e b accesses writes seen execRst) s)
      exact ⟨_, aroundAfter (withOthers e b accesses writes seen execRst) s,
        (clockEdge_running hr hs).trans ((congrArg _ hu).trans (moveOn_next e u)),
        (clockEdge_running (e := withOthers e b accesses writes seen execRst) hr hs).trans
          ((congrArg _ hu').trans (moveOn_next _ _))⟩

/-! ### The build parameter (R31) -/

/-- No edge changes `M`. -/
theorem clockEdge_modesPred {e : Edge} {s t : State} (h : clockEdge e s = .next t) : t.modesPred = s.modesPred := by
  cases hr : e.rst with
  | true => cases (clockEdge_reset s hr).symm.trans h; rfl
  | false =>
    cases hs : s.inReset with
    | true => cases (clockEdge_release hr hs).symm.trans h; rfl
    | false =>
      obtain ⟨u, hu, hmodes, -⟩ := phaseEdge_next e { s with around := aroundAfter e s }
      rw [clockEdge_running hr hs, hu, moveOn_next] at h
      cases h
      exact hmodes

/-! ### The request (R21) -/

/-- What an op's rule states depends on the draws only where the op draws. -/
theorem verdict_congr_draws {i : Instr} {d d' : Nat} (h : drawsUsed i = 0 ∨ d = d') (modes : Nat) :
    verdict modes d i = verdict modes d' i := by
  rcases h with h | rfl
  · cases i with
    | quant b =>
      have hdom : inDomain b = true := by simpa [drawsUsed] using h
      simp [verdict, hdom]
    | qexp b => rfl
    | qnorm b => rfl
    | qshift e => rfl
    | dshift d => rfl
    | mrot m => rfl
    | munrot m => rfl
    | dispc relu biasEn a => rfl
    | disps relu rep biasEn a st => rfl
  · rfl

/-- A dispatch in flight is known from its op, its command and its records. -/
theorem flight_eq_of_records {f g : Flight} (hop : f.op = g.op) (hissued : f.issued = g.issued)
    (hrecords : [backendRecord f, dimsRecord f] = [backendRecord g, dimsRecord g]) : f = g := by
  obtain ⟨fop, fmode, fissued⟩ := f
  obtain ⟨gop, gmode, gissued⟩ := g
  simp_all [backendRecord]

/-! ### The executor's duty (R28, R203) -/

/-- The commands an executor in step holds in a phase. -/
def heldInStep : Phase → List ExecCmd
  | .waitExec f .taken => [f.issued.cmd]
  | _ => []

@[simp] theorem heldInStep_idle : heldInStep .idle = [] := rfl
@[simp] theorem heldInStep_recv (ws : List Word) : heldInStep (.recv ws) = [] := rfl
@[simp] theorem heldInStep_resp (r : Response) (k : Fin 3) (shown : Bool) : heldInStep (.resp r k shown) = [] := rfl
@[simp] theorem heldInStep_taken (f : Flight) : heldInStep (.waitExec f .taken) = [f.issued.cmd] := rfl
@[simp] theorem heldInStep_due (f : Flight) (item : PortItem) (shown : Bool) :
    heldInStep (.waitExec f (.due item shown)) = [] := rfl

/-- An executor in step holds at most one command. -/
@[simp] theorem heldInStep_tail (p : Phase) : (heldInStep p).tail = [] := by
  cases p with
  | waitExec f st => cases st <;> rfl
  | idle => rfl
  | recv ws => rfl
  | resp r k shown => rfl

/-- The command taken from the port at an edge. -/
def takenAt (e : Edge) (p : Phase) : List ExecCmd :=
  if e.cmdReady then (commandOnPort p).toList.map (fun x => x.cmd) else []

/-- An executor in step holds what the phase says. -/
theorem executorInStep_iff (s : State) :
    Safety.executorInStep s ↔ s.around.executor.map Taken.cmd = heldInStep s.phase := by
  unfold Safety.executorInStep
  cases s.phase with
  | waitExec f st => cases st <;> simp
  | idle => simp
  | recv ws => simp
  | resp r k shown => simp

/-- Showing what is due is nothing to the executor. -/
@[simp] theorem heldInStep_showNext (p : Phase) : heldInStep (showNext p) = heldInStep p := by
  cases p with
  | waitExec f st => cases st <;> rfl
  | idle => rfl
  | recv ws => rfl
  | resp r k shown => rfl

/-- An op waits for no command that has been taken already. -/
theorem heldInStep_exec {i : Instr} {s t : State} (h : exec i s = .next t) : heldInStep t.phase = [] := by
  obtain ⟨r, -, hexec⟩ | ⟨f, -, hexec⟩ := exec_cases i s <;> cases hexec.symm.trans h <;> rfl

/-- Nor does what a request word leads to. -/
theorem heldInStep_takeRequestWord {e : Edge} {before : List Word} {s t : State}
    (h : takeRequestWord e before s = .next t) : heldInStep t.phase = [] := by
  cases hl : e.reqLast with
  | true =>
    have ha : acceptPacket (before ++ [e.reqData]) s = .next t := by simpa [takeRequestWord, hl] using h
    obtain ⟨i, -, hi⟩ | ⟨x, -, hx⟩ := acceptPacket_cases (before ++ [e.reqData]) s
    · exact heldInStep_exec (hi.symm.trans ha)
    · cases hx.symm.trans ha
      rfl
  | false =>
    obtain rfl : { s with phase := .recv (before ++ [e.reqData]) } = t := by simpa [takeRequestWord, hl] using h
    rfl

/-- The port offers a command only in one stage of a dispatch in flight. -/
theorem takenAt_of_no_command {p : Phase} (h : commandOnPort p = none) (e : Edge) : takenAt e p = [] := by
  simp [takenAt, h]

/-- As the ports of a dispatch in flight move, an executor in step holds what it held and what it takes (R27). -/
theorem heldInStep_stageAfterEdge (e : Edge) (f : Flight) (st : Stage) :
    heldInStep (.waitExec f (stageAfterEdge e st)) = heldInStep (.waitExec f st) ++ takenAt e (.waitExec f st) := by
  match st with
  | .taken => rw [takenAt_of_no_command rfl]; rfl
  | .due item false => rw [takenAt_of_no_command (ports_of_due f item).2, stageAfterEdge_due]; rfl
  | .due .backend true => rw [takenAt_of_no_command rfl]; rfl
  | .due .dims true => rw [takenAt_of_no_command rfl]; rfl
  | .due .command true =>
    rw [stageAfterEdge_command, takenAt]
    cases e.cmdReady <;> rfl

/-- While words are received the executor in step holds nothing, before an edge and after. -/
theorem heldInStep_received {e : Edge} {s u : State} {before : List Word} (h : received s before)
    (hu : phaseEdge e s = .next u) :
    heldInStep s.phase = [] ∧ takenAt e s.phase = [] ∧ heldInStep u.phase = [] := by
  have hs : heldInStep s.phase = [] := by rcases h with h | ⟨h, -⟩ <;> rw [h] <;> rfl
  refine ⟨hs, takenAt_of_no_command (ports_of_received h).2 e, ?_⟩
  cases hv : e.reqValid with
  | false =>
    cases (phaseEdge_gap h hv).symm.trans hu
    exact hs
  | true => exact heldInStep_takeRequestWord ((phaseEdge_receiving h hv).symm.trans hu)

/-- A response that is held or taken leaves the executor in step with nothing. -/
theorem heldInStep_responding {e : Edge} {s u : State} {r : Response} {k : Fin 3} {shown : Bool}
    (h : s.phase = .resp r k shown) (hu : phaseEdge e s = .next u) : heldInStep u.phase = [] := by
  by_cases ht : shown = true ∧ e.rspReady = true
  · cases (phaseEdge_taking h ht).symm.trans hu
    by_cases hk : k = 2 <;> simp [takeResponseWord, hk]
  · cases (phaseEdge_holding h ht).symm.trans hu
    simp [h]

/-- The QDB's side of an edge without reset keeps the executor in step: what it takes is added, a completion ends it. -/
theorem phaseEdge_heldInStep {e : Edge} {s u : State} (hu : phaseEdge e s = .next u) :
    heldInStep u.phase =
      if e.doneValid then (heldInStep s.phase ++ takenAt e s.phase).tail
      else heldInStep s.phase ++ takenAt e s.phase := by
  have receiving : ∀ before, received s before → heldInStep u.phase =
      if e.doneValid then (heldInStep s.phase ++ takenAt e s.phase).tail
      else heldInStep s.phase ++ takenAt e s.phase := fun before h => by
    obtain ⟨hs, ht, hu⟩ := heldInStep_received h hu
    simp [hs, ht, hu]
  cases hp : s.phase with
  | idle => rw [← hp]; exact receiving [] (.inr ⟨hp, rfl⟩)
  | recv ws => rw [← hp]; exact receiving ws (.inl hp)
  | resp r k shown => simp [heldInStep_responding hp hu, takenAt_of_no_command (p := .resp r k shown) rfl]
  | waitExec f st =>
    rw [← heldInStep_stageAfterEdge, heldInStep_tail]
    cases hd : e.doneValid with
    | true =>
      cases (phaseEdge_completion hp hd).symm.trans hu
      rfl
    | false =>
      cases (phaseEdge_waiting hp hd).symm.trans hu
      rfl

end Sys2Proof.Machine

open Sys2Proof Sys2Proof.Machine Sys2Proof.Safety

/-- Settles O47: the inputs named reach the other agents only. -/
theorem sinkAndBuffersHaveNoEffect : Obligations.SinkAndBuffersHaveNoEffect := by
  intro s e rest b accesses writes seen execRst h
  obtain ⟨t, r, ht, ht'⟩ := clockEdge_withOthers e { s with inbox := rest } b accesses writes seen execRst
  exact ⟨t, { t with around := r }, (step_of_inbox h).trans ht, (step_of_inbox rfl).trans ht', rfl⟩

/-- Settles O52: a step is an edge, and no edge changes `M`. -/
theorem modeCountNeverChanges : Obligations.ModeCountNeverChanges := by
  intro s t h
  cases hi : s.inbox with
  | nil => exact clockEdge_modesPred ((step_of_empty hi).symm.trans h)
  | cons e rest => exact clockEdge_modesPred (s := { s with inbox := rest }) ((step_of_inbox hi).symm.trans h)

/-- Settles O53: both states give the op the same rule, and the rule says what the op adds. -/
theorem opsDependOnRequestOnly : Obligations.OpsDependOnRequestOnly := by
  intro i s s' hmodes hdraws
  have hverdict : verdict (numModes s) s.draws i = verdict (numModes s') s'.draws i := by
    rw [verdict_congr_draws hdraws, numModes, numModes, hmodes]
  obtain ⟨r, hv, hexec⟩ | ⟨f, hv, hexec⟩ := exec_cases i s
  · refine ⟨_, _, [], [], hexec, exec_of_respond (hverdict.symm.trans hv), rfl, ?_⟩
    simp
  · obtain ⟨g, hop, hissued, hrecords, hexec'⟩ := exec_of_forward (hverdict.symm.trans hv)
    obtain rfl : g = f := flight_eq_of_records hop hissued hrecords.symm
    refine ⟨_, _, [g.issued], [backendRecord g, dimsRecord g], hexec, hexec', rfl, ?_⟩
    simp [accepted]

/-- Settles O57: a reset empties both sides; at any other edge what is taken is added and a completion ends it. The duty
not to complete early is not used: with nothing held, a completion takes nothing from the executor. -/
theorem executorStaysInStep : Obligations.ExecutorStaysInStep := by
  intro s t e rest h hidle hin _ htogether ht
  rw [executorInStep_iff] at hin ⊢
  obtain ⟨haround, -⟩ := step_around h ht
  rw [haround, aroundAfter_commands, htogether]
  cases hr : e.rst with
  | true =>
    cases (step_reset h hr).symm.trans ht
    rfl
  | false =>
    cases hs : s.inReset with
    | true =>
      cases (step_release h hr hs).symm.trans ht
      rw [portSide_of_reset (.inr hs), hin, hidle hs]
      simp
    | false =>
      obtain ⟨u, hu, -⟩ := phaseEdge_next e (afterOthers s e rest)
      cases (step_of_phaseEdge h hr hs hu).symm.trans ht
      have hheld : heldInStep (if e.advance then showNext u.phase else u.phase) = heldInStep u.phase := by
        cases e.advance <;> simp
      rw [hheld, phaseEdge_heldInStep hu, portSide_commands hr hs, hin]
      simp [takenAt]
end

section
/-! The byte view byte by byte (R44), and what one access of the host does to storage, races and reads (R51, R205). -/

namespace Sys2Proof

/-- Byte `k` of a word is its bits `[8k+7:8k]` (R44). -/
theorem wordBytes_getElem? (w : Word) {k : Nat} (hk : k < 4) : (wordBytes w)[k]? = some (w.extractLsb' (8 * k) 8) := by
  match k, hk with
  | 0, _ => rfl
  | 1, _ => rfl
  | 2, _ => rfl
  | 3, _ => rfl

@[simp] theorem bytesOfPacket_singleton (w : Word) : bytesOfPacket [w] = wordBytes w := List.append_nil _

namespace Machine

/-! ### What an access of the host does, kind by kind -/

@[simp] theorem hostAccess_read_mem (cs : List ExecCmd) (r : Around) (a : Addr) :
    (hostAccess cs r (.read a)).mem = r.mem := by
  simp only [hostAccess, plainAccess]
  split <;> rfl

@[simp] theorem hostAccess_write_mem (cs : List ExecCmd) (r : Around) (a : Addr) (b : Byte) :
    (hostAccess cs r (.write a b)).mem = memWrite r.mem a.toNat b := rfl

@[simp] theorem hostAccess_free_mem (cs : List ExecCmd) (r : Around) (a : Addr) :
    (hostAccess cs r (.free a)).mem = memErase r.mem a.toNat := rfl

@[simp] theorem hostAccess_raced (cs : List ExecCmd) (r : Around) (acc : HostAccess) :
    (hostAccess cs r acc).raced = r.raced ++ brokenBy cs acc := by
  obtain ⟨-, -, -, -, -, hraced⟩ := hostAccess_frame cs r acc
  exact hraced

/-- Which bytes are defined is storage's and the races' to say. -/
theorem definedByte_congr {r r' : Around} (hmem : r.mem = r'.mem) (hraced : r.raced = r'.raced) (a : Addr) :
    definedByte r a = definedByte r' a := by
  have hrace : inRace r a = inRace r' a := by rw [inRace, inRace, hraced]
  rw [definedByte, definedByte, hmem, hrace]

/-- A read gives the byte that is still defined once its own race counts, and a free value if none is. -/
theorem hostAccess_read_hostReads (cs : List ExecCmd) (r : Around) (a : Addr) :
    (hostAccess cs r (.read a)).hostReads =
      r.hostReads ++ [(a.toNat, (definedByte (hostAccess cs r (.read a)) a).getD (Config.freeByte r.freeReads))] := by
  have hdefined : definedByte (hostAccess cs r (.read a)) a =
      definedByte { r with raced := r.raced ++ brokenBy cs (.read a) } a :=
    definedByte_congr (by simp) (by simp) a
  rw [hdefined]
  simp only [hostAccess, plainAccess]
  cases definedByte { r with raced := r.raced ++ brokenBy cs (.read a) } a <;> rfl

/-- An address is in a race after an access if it was before, or shares a buffer on loan with the access that breaks its
duty. -/
theorem inRace_hostAccess (cs : List ExecCmd) (r : Around) (acc : HostAccess) (x : Addr) :
    inRace (hostAccess cs r acc) x = (inRace r x || cs.any (fun c => [Buffer.lhs, .rhs, .out, .bias].any (fun k =>
      forbids acc k && inBuffer k c (accessAddr acc) && inBuffer k c x))) := by
  rw [inRace, hostAccess_raced, List.any_append, brokenBy, List.any_flatMap]
  simp only [List.any_map, List.any_filter, Function.comp_def, inRace]

end Machine

end Sys2Proof

open Sys2Proof Sys2Proof.Machine

/-- Settles O6: the byte view is lossless, and dividing by `2^(8k)` shifts byte `k` to the bottom. -/
theorem byteViewIsLittleEndian : Obligations.ByteViewIsLittleEndian := by
  refine ⟨packetOfBytes_bytesOfPacket, fun w k hk => ?_⟩
  rw [bytesOfPacket_singleton, wordBytes_getElem? w hk, BitVec.extractLsb',
    Nat.shiftRight_eq_div_pow]

/-- Settles O33: the access adds the races of the duties it breaks, then reads, writes or forgets one byte of storage. -/
theorem hostAccessesReadWriteOrRace : Obligations.HostAccessesReadWriteOrRace := by
  refine ⟨fun a b k => ⟨by simp [forbids], rfl, rfl⟩, fun cs r acc => ⟨fun x => ?_, fun x => ?_, ?_⟩⟩
  · rw [hostAccess_raced, List.mem_append, mem_brokenBy]
  · rw [definedByte, inRace_hostAccess]
    cases acc with
    | read a => rw [hostAccess_read_mem]
    | write a b => simp only [hostAccess_write_mem, memRead_memWrite, BitVec.toNat_inj]
    | free a => simp only [hostAccess_free_mem, memRead_memErase, BitVec.toNat_inj]
  · cases acc with
    | read a => exact hostAccess_read_hostReads cs r a
    | write a b => exact (List.append_nil _).symm
    | free a => exact (List.append_nil _).symm
end

section
/-! The decoder's checks (R62, R66, R67): what an accepted header and accepted operands are, and when a packet fails. -/

namespace Sys2Proof

/-! ### The header -/

/-- The op an op field names is the one with that code (R62). -/
theorem eq_opCodeBits_of_named {f : BitVec 4} {op : OpCode} (h : opOfField f = some op) : f = opCodeBits op := by
  revert h f
  cases op <;> decide

/-- No flag is in the op field (R61). -/
theorem flagBits_low (op : OpCode) {k : Nat} (hk : k < 4) : (flagBits op).getLsbD k = false := by
  interval_cases k <;> cases op <;> rfl

/-- No op has a flag above the three of R61. -/
theorem flagBits_high (op : OpCode) {k : Nat} (hk : 7 ≤ k) : (flagBits op).getLsbD k = false := by
  have hlt : (flagBits op).toNat < 2 ^ 7 := by cases op <;> decide
  exact Nat.testBit_lt_two_pow (Nat.lt_of_lt_of_le hlt (Nat.pow_le_pow_right Nat.two_pos hk))

/-- The mask of the op field (R61). -/
theorem opMask_bit (k : Nat) : (0x0000000F#32).getLsbD k = decide (k < 4) := by
  have hmask : 0x0000000F#32 = BitVec.ofNat 32 (2 ^ 4 - 1) := rfl
  rw [hmask, BitVec.getLsbD_ofNat, Nat.testBit_two_pow_sub_one]
  by_cases hk : k < 4
  · have hk32 : k < 32 := by omega
    simp [hk, hk32]
  · simp [hk]

/-- A header sets no reserved bit exactly if each bit above the op field is an allowed flag or 0 (R66). -/
theorem reservedHeaderSet_eq_false_iff (op : OpCode) (w0 : Word) :
    reservedHeaderSet op w0 = false ↔ ∀ k, 4 ≤ k → (flagBits op).getLsbD k = false → w0.getLsbD k = false := by
  have hmasked : reservedHeaderSet op w0 = false ↔ w0 &&& ~~~(0x0000000F#32 ||| flagBits op) = 0#32 := by
    simp [reservedHeaderSet]
  rw [hmasked]
  constructor
  · intro h k hk hflag
    have hbit := congrArg (fun w : Word => w.getLsbD k) h
    by_cases hw : k < 32
    · simpa only [BitVec.getLsbD_and, BitVec.getLsbD_not, BitVec.getLsbD_or, opMask_bit, hflag, hw, Nat.not_lt.2 hk,
        decide_true, decide_false, Bool.or_false, Bool.not_false, Bool.and_true, BitVec.getLsbD_zero] using hbit
    · exact BitVec.getLsbD_of_ge _ _ (Nat.le_of_not_lt hw)
  · intro h
    apply BitVec.eq_of_getLsbD_eq
    intro k hk
    simp only [BitVec.getLsbD_and, BitVec.getLsbD_not, BitVec.getLsbD_or, opMask_bit, hk, decide_true,
      Bool.true_and, BitVec.getLsbD_zero]
    rcases Nat.lt_or_ge k 4 with hlow | hhigh
    · simp [hlow]
    · cases hflag : (flagBits op).getLsbD k
      · simp [h k hhigh hflag]
      · simp

/-- The op field of a header is the header's low bits (R61). -/
theorem opField_eq_iff (w0 : Word) (c : BitVec 4) : opField w0 = c ↔ ∀ k < 4, w0.getLsbD k = c.getLsbD k := by
  constructor
  · rintro rfl k hk
    rw [opField, BitVec.getLsbD_extractLsb', decide_eq_true hk, Bool.true_and, Nat.zero_add]
  · intro h
    apply BitVec.eq_of_getLsbD_eq
    intro k hk
    rw [opField, BitVec.getLsbD_extractLsb', decide_eq_true hk, Bool.true_and, Nat.zero_add, h k hk]

/-- The bits of a flag at its place. -/
theorem flagAt_bit (b : Bool) (k : Nat) {i : Nat} (hi : i < 32) : (flagAt b k).getLsbD i = (b && decide (k = i)) := by
  cases b with
  | false => simp [flagAt]
  | true =>
    rw [flagAt, if_pos rfl, ← BitVec.twoPow_eq, BitVec.getLsbD_twoPow, Bool.true_and]
    by_cases hk : k = i
    · simp [hk, hi]
    · simp [hk]

/-- An accepted header is the encoding of its op and its flags (R61). -/
theorem headerWord_of_accepted {op : OpCode} {w0 : Word} (hop : opField w0 = opCodeBits op)
    (h : reservedHeaderSet op w0 = false) : headerWord op (reluBit w0) (repBit w0) (biasBit w0) = w0 := by
  rw [reservedHeaderSet_eq_false_iff] at h
  rw [opField_eq_iff] at hop
  apply BitVec.eq_of_getLsbD_eq
  intro i hi
  simp only [headerWord, BitVec.getLsbD_or, BitVec.getLsbD_setWidth, flagAt_bit _ _ hi, hi, decide_true, Bool.true_and]
  rcases Nat.lt_or_ge i 4 with hfield | habove
  · have hne : 4 ≠ i ∧ 5 ≠ i ∧ 6 ≠ i := by omega
    simp [-BitVec.getLsbD_eq_getElem, hop i hfield, hne]
  · have hcode : (opCodeBits op).getLsbD i = false := BitVec.getLsbD_of_ge _ _ habove
    rw [hcode]
    rcases Nat.lt_or_ge i 7 with hflags | hhigh
    · interval_cases i <;> simp [reluBit, repBit, biasBit]
    · have hne : 4 ≠ i ∧ 5 ≠ i ∧ 6 ≠ i := by omega
      rw [h i habove (flagBits_high op hhigh)]
      simp [hne]

/-- What a row of R62 asks of a header is that it names the row's op and sets no reserved bit (R66). -/
theorem masked_eq_iff (op : OpCode) (w0 : Word) :
    w0 &&& ~~~flagBits op = (opCodeBits op).setWidth 32 ↔
      opField w0 = opCodeBits op ∧ reservedHeaderSet op w0 = false := by
  have hbit : ∀ k < 32, (w0 &&& ~~~flagBits op).getLsbD k = (w0.getLsbD k && !(flagBits op).getLsbD k) := by
    intro k hk
    rw [BitVec.getLsbD_and, BitVec.getLsbD_not, decide_eq_true hk, Bool.true_and]
  have hcode : ∀ k < 32, ((opCodeBits op).setWidth 32).getLsbD k = (opCodeBits op).getLsbD k := by
    intro k hk
    rw [BitVec.getLsbD_setWidth, decide_eq_true hk, Bool.true_and]
  have hzero : ∀ k, 4 ≤ k → (opCodeBits op).getLsbD k = false := fun k hk => BitVec.getLsbD_of_ge _ _ hk
  rw [opField_eq_iff, reservedHeaderSet_eq_false_iff, BitVec.eq_of_getLsbD_eq_iff]
  constructor
  · intro h
    refine ⟨fun k hk => ?_, fun k hk hflag => ?_⟩
    · have hk32 : k < 32 := by omega
      rw [← hcode k hk32, ← h k hk32, hbit k hk32, flagBits_low op hk, Bool.not_false, Bool.and_true]
    · by_cases hk32 : k < 32
      · rw [← hzero k hk, ← hcode k hk32, ← h k hk32, hbit k hk32, hflag, Bool.not_false, Bool.and_true]
      · exact BitVec.getLsbD_of_ge _ _ (Nat.le_of_not_lt hk32)
  · rintro ⟨hfield, hreserved⟩ k hk
    rw [hbit k hk, hcode k hk]
    rcases Nat.lt_or_ge k 4 with hlow | hhigh
    · rw [flagBits_low op hlow, hfield k hlow, Bool.not_false, Bool.and_true]
    · rw [hzero k hhigh]
      cases hflag : (flagBits op).getLsbD k with
      | false => simp [hreserved k hhigh hflag]
      | true => simp

/-! ### The operands -/

/-- An address is its low word plus `2^32` times its high word (R44). -/
theorem joinAddr_toNat (lo hi : Word) : (joinAddr lo hi).toNat = lo.toNat + 2 ^ 32 * hi.toNat := by
  have hlo := lo.isLt
  have hhi := hi.isLt
  have hshift : hi.toNat <<< 32 < 2 ^ 64 := by rw [Nat.shiftLeft_eq]; omega
  rw [joinAddr, BitVec.toNat_or, BitVec.toNat_shiftLeft, BitVec.toNat_setWidth_of_le (by decide),
    BitVec.toNat_setWidth_of_le (by decide), Nat.mod_eq_of_lt hshift, ← Nat.shiftLeft_add_eq_or_of_lt hlo,
    Nat.shiftLeft_eq]
  omega

/-- Its two words are those it is joined from (R44). -/
theorem addrWords_joinAddr (lo hi : Word) : addrLo (joinAddr lo hi) = lo ∧ addrHi (joinAddr lo hi) = hi := by
  have hjoin := joinAddr_toNat lo hi
  have hlo := lo.isLt
  have hhi := hi.isLt
  constructor <;> apply BitVec.eq_of_toNat_eq <;>
    simp only [addrLo, addrHi, BitVec.extractLsb'_toNat, hjoin, Nat.shiftRight_eq_div_pow] <;> omega

/-- The words of operands are those they were read from (R64). -/
theorem argWords_dispatchArgs (w1 w2 w3 w4 w5 w6 w7 w8 w9 w10 w11 w12 w13 : Word) :
    argWords (dispatchArgs w1 w2 w3 w4 w5 w6 w7 w8 w9 w10 w11 w12 w13) =
      [w1, w2, w3, w4, w5, w6, w7, w8, w9, w10, w11, w12, w13] := by
  simp [argWords, dispatchArgs, addrWords_joinAddr]

/-- QSHIFT's reserved bits are 0 exactly if its operand word is below 256 (R63). -/
theorem qshiftReserved_iff (w : Word) : w.extractLsb' 8 24 = 0 ↔ w.toNat < 256 := by
  rw [← BitVec.toNat_inj, BitVec.extractLsb'_toNat, Nat.shiftRight_eq_div_pow]
  have := w.isLt
  simp only [BitVec.ofNat_eq_ofNat, BitVec.toNat_zero]
  omega

/-- An operand word of QSHIFT with no reserved bit is the exponent it is read as (R63). -/
theorem qshiftOperand_of_word {w : Word} (h : w.extractLsb' 8 24 = 0) : (w.extractLsb' 0 8).setWidth 32 = w := by
  rw [qshiftReserved_iff] at h
  apply BitVec.eq_of_toNat_eq
  rw [BitVec.toNat_setWidth, BitVec.extractLsb'_toNat, Nat.shiftRight_zero]
  omega

/-- The reserved operand bits of QSHIFT's row are those (R62, R63). -/
theorem qshiftMask_iff (w : Word) : w &&& 0xFFFFFF00 = 0 ↔ w.extractLsb' 8 24 = 0 := by
  constructor
  · intro h
    have hones : (0xFFFFFF00 : Word).extractLsb' 8 24 = BitVec.allOnes 24 := by decide
    calc w.extractLsb' 8 24 = (w &&& 0xFFFFFF00).extractLsb' 8 24 := by
          rw [BitVec.extractLsb'_and, hones, BitVec.and_allOnes]
      _ = 0 := by rw [h]; rfl
  · intro h
    rw [← qshiftOperand_of_word h]
    exact Laws.Encoding.exponent_reserved _

/-- What the operand words of an op have to meet (R63, R67): their number, and QSHIFT's reserved bits are 0. -/
def operandsOk (op : OpCode) (rest : List Word) : Prop :=
  rest.length + 1 = packetLength op ∧ (op = .qshift → (rest.headD 0).extractLsb' 8 24 = 0)

/-- Operands that meet that are decoded. -/
theorem decodeOperands_of_ok {op : OpCode} {rest : List Word} (h : operandsOk op rest) (w0 : Word) :
    ∃ i, decodeOperands op w0 rest = .ok i := by
  obtain ⟨hlen, hreserved⟩ := h
  match op, rest, hlen with
  | .quant, [_], _ | .qexp, [_], _ | .qnorm, [_], _ | .dshift, [_], _ | .mrot, [_], _ | .munrot, [_], _ =>
    exact ⟨_, rfl⟩
  | .qshift, [_], _ => exact ⟨_, if_pos (hreserved rfl)⟩
  | .dispc, [_, _, _, _, _, _, _, _, _, _, _, _, _], _ => exact ⟨_, rfl⟩
  | .disps, [_, _, _, _, _, _, _, _, _, _, _, _, _, _, _, _, _], _ => exact ⟨_, rfl⟩

/-- Under an accepted header, operands that are decoded are those the instruction is encoded with (R61 to R64). -/
theorem encode_of_decodeOperands {op : OpCode} {w0 : Word} {rest : List Word} {i : Instr}
    (hr : reservedHeaderSet op w0 = false) (h : decodeOperands op w0 rest = .ok i) :
    i.opCode = op ∧ encode i = headerWord op (reluBit w0) (repBit w0) (biasBit w0) :: rest := by
  rw [reservedHeaderSet_eq_false_iff] at hr
  have hrelu : (flagBits op).getLsbD 4 = false → reluBit w0 = false := hr 4 le_rfl
  have hrep : (flagBits op).getLsbD 5 = false → repBit w0 = false := hr 5 (by decide)
  have hbias : (flagBits op).getLsbD 6 = false → biasBit w0 = false := hr 6 (by decide)
  clear hr
  -- The ten rows of `decodeOperands`: of the nine ops only QSHIFT (4), DISPC (8) and DISPS (9)
  -- need more than the header.
  unfold decodeOperands at h
  split at h
  case h_10 => cases h
  case h_4 w1 =>
    split at h
    next hz =>
      cases h
      rw [encode, hrelu rfl, hrep rfl, hbias rfl, qshiftOperand_of_word hz]
      exact ⟨rfl, rfl⟩
    next => cases h
  case h_8 =>
    cases h
    rw [encode, hrep rfl, argWords_dispatchArgs]
    exact ⟨rfl, rfl⟩
  case h_9 =>
    cases h
    rw [encode, argWords_dispatchArgs]
    exact ⟨rfl, rfl⟩
  all_goals
    cases h
    rw [encode, hrelu rfl, hrep rfl, hbias rfl]
    exact ⟨rfl, rfl⟩

/-! ### The packet -/

/-- A packet is decoded by its operands exactly if its header names the op and sets no reserved bit (R67). -/
theorem decode_eq_ok_iff {w0 : Word} {rest : List Word} {i : Instr} :
    decode (w0 :: rest) = .ok i ↔
      ∃ op, opField w0 = opCodeBits op ∧ reservedHeaderSet op w0 = false ∧ decodeOperands op w0 rest = .ok i := by
  constructor
  · intro h
    cases hop : opOfField (opField w0) with
    | none => simp [decode, hop] at h
    | some op =>
      cases hr : reservedHeaderSet op w0 with
      | true => simp [decode, hop, hr] at h
      | false => exact ⟨op, eq_opCodeBits_of_named hop, hr, by simpa [decode, hop, hr] using h⟩
  · rintro ⟨op, hop, hr, hi⟩
    simpa [decode, hop, opOfField_opCodeBits, hr] using hi

/-- A packet that decodes is the encoding of what it decodes to. -/
theorem encode_of_decode {p : List Word} {i : Instr} (h : decode p = .ok i) : encode i = p := by
  cases p with
  | nil => cases h
  | cons w0 rest =>
    obtain ⟨op, hop, hr, hi⟩ := decode_eq_ok_iff.1 h
    obtain ⟨-, hencode⟩ := encode_of_decodeOperands hr hi
    rw [hencode, headerWord_of_accepted hop hr]

/-- A packet decodes exactly if its header names an op and sets no reserved bit, and its operands are well formed. -/
theorem exists_decode_iff (w0 : Word) (rest : List Word) :
    (∃ i, decode (w0 :: rest) = .ok i) ↔
      ∃ op, opField w0 = opCodeBits op ∧ reservedHeaderSet op w0 = false ∧ operandsOk op rest := by
  constructor
  · rintro ⟨i, h⟩
    obtain ⟨op, hop, hr, hi⟩ := decode_eq_ok_iff.1 h
    obtain ⟨hcode, hencode⟩ := encode_of_decodeOperands hr hi
    refine ⟨op, hop, hr, ?_, ?_⟩
    · rw [← hcode, ← length_encode, hencode, List.length_cons]
    · rintro rfl
      cases i with
      | qshift e =>
        obtain ⟨hreserved, -⟩ := qshiftOperand_word e
        rw [encode, List.cons.injEq] at hencode
        obtain ⟨-, rfl⟩ := hencode
        exact hreserved
      | _ => cases hcode
  · rintro ⟨op, hop, hr, hok⟩
    obtain ⟨i, hi⟩ := decodeOperands_of_ok hok w0
    exact ⟨i, decode_eq_ok_iff.2 ⟨op, hop, hr, hi⟩⟩

/-! ### The rows of the op map (R62) -/

/-- The row of an op. -/
def rowOf (op : OpCode) : EncodingRow :=
  ⟨op, opCodeBits op, ~~~flagBits op, (opCodeBits op).setWidth 32, packetLength op,
    if op = .qshift then 0xFFFFFF00 else 0⟩

/-- The op map has one row for each op. -/
theorem packetWellFormed_iff (p : List Word) : packetWellFormed p = true ↔ ∃ op, (rowOf op).accepts p = true := by
  have hrows : encodingRows = [.quant, .qexp, .qnorm, .qshift, .dshift, .mrot, .munrot, .dispc, .disps].map rowOf := by
    decide
  have hall : ∀ op : OpCode, op ∈ [.quant, .qexp, .qnorm, .qshift, .dshift, .mrot, .munrot, .dispc, .disps] := by
    intro op
    cases op <;> decide
  simp only [packetWellFormed, hrows, List.any_map, List.any_eq_true, Function.comp_apply]
  exact ⟨fun ⟨op, _, h⟩ => ⟨op, h⟩, fun ⟨op, h⟩ => ⟨op, hall op, h⟩⟩

/-- A row accepts a packet exactly if its header and operands are what the decoder asks of the row's op. -/
theorem rowOf_accepts_iff (op : OpCode) (w0 : Word) (rest : List Word) :
    (rowOf op).accepts (w0 :: rest) = true ↔
      opField w0 = opCodeBits op ∧ reservedHeaderSet op w0 = false ∧ operandsOk op rest := by
  have hw1 : (w0 :: rest).getD 1 0 = rest.headD 0 := by cases rest <;> rfl
  rw [← and_assoc, ← masked_eq_iff, operandsOk]
  simp only [EncodingRow.accepts, EncodingRow.headerOk, EncodingRow.lengthOk, EncodingRow.operandOk, rowOf, hw1,
    List.headD_cons, List.length_cons, Bool.and_eq_true, beq_iff_eq, and_assoc]
  by_cases hop : op = .qshift
  · simp only [hop, if_true, qshiftMask_iff, true_implies]
  · simp [hop]

/-! ### When a packet fails (R67) -/

/-- A packet fails to decode exactly if it does not decode. -/
theorem exists_decode_error_iff (p : List Word) : (∃ x, decode p = .error x) ↔ ¬ ∃ i, decode p = .ok i := by
  cases decode p <;> simp

/-- An op field names no op exactly if it is 0 or 10 and above (R62). -/
theorem opOfField_eq_none_iff (f : BitVec 4) : opOfField f = none ↔ f.toNat = 0 ∨ 10 ≤ f.toNat := by
  revert f
  decide

/-- The op field as a number (R61). -/
theorem opField_toNat (w0 : Word) : (opField w0).toNat = w0.toNat % 16 := BitVec.extractLsb'_toNat 0 4 w0

/-- A header of an op without flags sets no reserved bit exactly if it is below 16 (R66). -/
theorem reservedHeaderSet_noFlags {op : OpCode} (hflags : flagBits op = 0) (w0 : Word) :
    reservedHeaderSet op w0 = false ↔ w0.toNat < 16 := by
  rw [reservedHeaderSet_eq_false_iff, hflags]
  constructor
  · intro h
    exact Nat.lt_pow_two_of_testBit (n := 4) _ (fun k hk => h k hk (BitVec.getLsbD_zero))
  · intro h k hk _
    exact Nat.testBit_lt_two_pow (Nat.lt_of_lt_of_le h (Nat.pow_le_pow_right Nat.two_pos hk))

/-- Where the header names an op, a packet decodes exactly if it meets what that op asks. -/
theorem exists_decode_iff_of_named {op : OpCode} {w0 : Word} (h : opField w0 = opCodeBits op) (rest : List Word) :
    (∃ i, decode (w0 :: rest) = .ok i) ↔ reservedHeaderSet op w0 = false ∧ operandsOk op rest := by
  rw [exists_decode_iff]
  constructor
  · rintro ⟨op', hop', hr, hok⟩
    obtain rfl : op' = op := by
      have hnamed := opOfField_opCodeBits op'
      rw [← hop', h, opOfField_opCodeBits] at hnamed
      exact (Option.some.inj hnamed).symm
    exact ⟨hr, hok⟩
  · rintro ⟨hr, hok⟩
    exact ⟨op, h, hr, hok⟩

/-- Where the header names no op, no packet decodes. -/
theorem not_exists_decode_of_reserved {w0 : Word} (h : opOfField (opField w0) = none) (rest : List Word) :
    ¬ ∃ i, decode (w0 :: rest) = .ok i := by
  simp [decode, h]

/-! ### The headers of the dispatches as numbers (R61) -/

/-- DISPC's header: op code 8, `relu` worth 16, `bias_en` worth 64. -/
theorem dispcHeader_eq (relu biasEn : Bool) :
    BitVec.ofNat 32 (8 + 16 * relu.toNat + 64 * biasEn.toNat) = headerWord .dispc relu false biasEn := by
  decide +revert

/-- DISPS's header: op code 9, and `rep` worth 32 beside them. -/
theorem dispsHeader_eq (relu rep biasEn : Bool) :
    BitVec.ofNat 32 (9 + 16 * relu.toNat + 32 * rep.toNat + 64 * biasEn.toNat) = headerWord .disps relu rep biasEn := by
  decide +revert

end Sys2Proof

open Sys2Proof

/-- Settles O3: a packet decodes exactly if the row of its op accepts it; where it fails, the op field says which check
can. -/
theorem decodeSucceedsExactlyOnWellFormed : Obligations.DecodeSucceedsExactlyOnWellFormed := by
  refine fun w0 rest => ⟨?_, ?_⟩
  · rw [packetWellFormed_iff, exists_decode_iff]
    exact exists_congr fun op => (rowOf_accepts_iff op w0 rest).symm
  rw [exists_decode_error_iff]
  have hfield := opField_toNat w0
  cases hop : opOfField (opField w0) with
  | none =>
    have hreserved := (opOfField_eq_none_iff _).1 hop
    simp only [not_exists_decode_of_reserved hop, not_false_eq_true, true_iff]
    omega
  | some op =>
    have hnamed := eq_opCodeBits_of_named hop
    rw [hnamed] at hfield
    have hmask := masked_eq_iff op w0
    simp only [hnamed, true_and] at hmask
    rw [exists_decode_iff_of_named hnamed, operandsOk, qshiftReserved_iff]
    cases op
    case dispc | disps =>
      rw [← hmask]
      simp [← hfield, opCodeBits, packetLength, flagBits, imp_iff_not_or]
    all_goals
      rw [reservedHeaderSet_noFlags rfl]
      simp [← hfield, opCodeBits, packetLength]
      omega

/-- Settles O1: the header names the op and keeps the flags, and each operand is read from the words it was put in. -/
theorem decodeEncodeRoundTrip : Obligations.DecodeEncodeRoundTrip := decode_encode

/-- Settles O2: an accepted header is the op's code with its flags, and accepted operands are the words encoded. -/
theorem encodeDecodeRoundTrip : Obligations.EncodeDecodeRoundTrip := fun _ _ => encode_of_decode

/-- Settles O5: the headers are encoded ones, and an address is its low word plus `2^32` times its high word. -/
theorem dispatchWordsAreRead : Obligations.DispatchWordsAreRead := by
  intro relu rep biasEn w1 w2 w3 w4 w5 w6 w7 w8 w9 w10 w11 w12 w13 w14 w15 w16 w17
  refine ⟨dispatchArgs w1 w2 w3 w4 w5 w6 w7 w8 w9 w10 w11 w12 w13, ?_, ?_, rfl, rfl, rfl, rfl, rfl,
    joinAddr_toNat w6 w7, joinAddr_toNat w8 w9, joinAddr_toNat w10 w11, joinAddr_toNat w12 w13⟩
  · obtain ⟨hrelu, -, hbias⟩ := flags_headerWord .dispc relu false biasEn
    rw [dispcHeader_eq, decode_headerWord (reservedHeaderSet_dispc relu biasEn), decodeOperands, hrelu, hbias]
  · obtain ⟨hrelu, hrep, hbias⟩ := flags_headerWord .disps relu rep biasEn
    rw [dispsHeader_eq, decode_headerWord (reservedHeaderSet_disps relu rep biasEn), decodeOperands, hrelu, hrep, hbias]

/-- Settles O4: each packet by evaluation. -/
theorem writtenOutPacketsDecode : Obligations.WrittenOutPacketsDecode := by
  unfold Obligations.WrittenOutPacketsDecode
  decide
end

section
/-! Words packed into a port's data (R24, R68 to R72): word `k` stands at bits `[32k+31:32k]`. -/

namespace Sys2Proof.Machine

/-- Dividing packed words by `2^(32k)` drops the first `k` of them. -/
theorem packWords_drop (ws : List Word) (k : Nat) : packWords ws / 2 ^ (32 * k) = packWords (ws.drop k) := by
  induction k generalizing ws with
  | zero => simp
  | succ k ih =>
    cases ws with
    | nil => simp [packWords]
    | cons w ws =>
      have hw := w.isLt
      have hfirst : packWords (w :: ws) / 2 ^ 32 = packWords ws := by
        rw [packWords]
        omega
      rw [Nat.mul_succ, Nat.add_comm, Nat.pow_add, ← Nat.div_div_eq_div_mul, hfirst, ih, List.drop_succ_cons]

/-- A field of packed words that begins at a word boundary. -/
theorem extractLsb'_packWords (n len : Nat) (ws : List Word) {k : Nat} (h : 32 * k + len ≤ n) :
    (BitVec.ofNat n (packWords ws)).extractLsb' (32 * k) len = BitVec.ofNat len (packWords (ws.drop k)) := by
  apply BitVec.eq_of_getLsbD_eq
  intro i hi
  have hin : 32 * k + i < n := by omega
  rw [← packWords_drop, BitVec.getLsbD_extractLsb', BitVec.getLsbD_ofNat, BitVec.getLsbD_ofNat, decide_eq_true hin,
    Nat.testBit_div_two_pow, Bool.true_and, Nat.add_comm i]

/-- A 32-bit field there is a word. -/
theorem packedWord {n k : Nat} {ws rest : List Word} {w : Word} (h : 32 * k + 32 ≤ n) (hk : ws.drop k = w :: rest) :
    (BitVec.ofNat n (packWords ws)).extractLsb' (32 * k) 32 = w := by
  rw [extractLsb'_packWords n 32 ws h, hk]
  apply BitVec.eq_of_toNat_eq
  have hw := w.isLt
  rw [packWords, BitVec.toNat_ofNat]
  omega

/-- A 64-bit field there is an address, its low word first (R44). -/
theorem packedAddr {n k : Nat} {ws rest : List Word} {a : Addr} (h : 32 * k + 64 ≤ n)
    (hk : ws.drop k = addrLo a :: addrHi a :: rest) :
    (BitVec.ofNat n (packWords ws)).extractLsb' (32 * k) 64 = a := by
  rw [extractLsb'_packWords n 64 ws h, hk]
  apply BitVec.eq_of_toNat_eq
  have hjoin := joinAddr_toNat (addrLo a) (addrHi a)
  rw [joinAddr_words] at hjoin
  have ha := a.isLt
  rw [packWords, packWords, BitVec.toNat_ofNat]
  omega

/-- A bit of a word there. -/
theorem packedBit {n k i : Nat} {ws rest : List Word} {w : Word} (h : 32 * k + 32 ≤ n) (hk : ws.drop k = w :: rest)
    (hi : i < 32) : (BitVec.ofNat n (packWords ws)).getLsbD (32 * k + i) = w.getLsbD i := by
  rw [← packedWord h hk, BitVec.getLsbD_extractLsb', decide_eq_true hi, Bool.true_and]

/-- The three flags in bits 0 to 2 of X16, and zeros above (R69). -/
theorem flagsWord_bits (activation repeatingBias biasEn : Bool) :
    (flagsWord activation repeatingBias biasEn).getLsbD 0 = activation ∧
    (flagsWord activation repeatingBias biasEn).getLsbD 1 = repeatingBias ∧
    (flagsWord activation repeatingBias biasEn).getLsbD 2 = biasEn ∧
    (flagsWord activation repeatingBias biasEn).extractLsb' 3 29 = 0 := by
  decide +revert

/-- Word `k` of a command is at bits `[32k+31:32k]` of `cmd_data` (R70). -/
theorem commandData_word (c : ExecCmd) {k : Nat} (hk : k < 19) :
    some ((commandData c).extractLsb' (32 * k) 32) = (commandWords c)[k]? := by
  have hlen : k < (commandWords c).length := hk
  rw [List.getElem?_eq_getElem hlen]
  exact congrArg some (packedWord (by omega) (List.drop_eq_getElem_cons hlen))

/-- R0 as a number: the op above the status code (R68). -/
theorem responseR0_toNat (r : Response) : (responseR0 r).toNat = 2 ^ 8 * r.op.toNat + (statusCode r.status).toNat := by
  have hop := r.op.isLt
  have hshift : r.op.toNat <<< 8 < 2 ^ 32 := by rw [Nat.shiftLeft_eq]; omega
  rw [responseR0, BitVec.toNat_or, BitVec.toNat_shiftLeft, BitVec.toNat_setWidth_of_le (by decide),
    BitVec.toNat_setWidth_of_le (by decide), Nat.mod_eq_of_lt hshift,
    ← Nat.shiftLeft_add_eq_or_of_lt (statusCode r.status).isLt, Nat.shiftLeft_eq, Nat.mul_comm]

/-- Bits [7:0], [11:8] and [31:12] of R0 (R68). -/
theorem responseR0_fields (r : Response) :
    (responseR0 r).extractLsb' 0 8 = statusCode r.status ∧ (responseR0 r).extractLsb' 8 4 = r.op ∧
      (responseR0 r).extractLsb' 12 20 = 0 := by
  have hR0 := responseR0_toNat r
  have hop := r.op.isLt
  have hstatus := (statusCode r.status).isLt
  refine ⟨?_, ?_, ?_⟩ <;> apply BitVec.eq_of_toNat_eq <;>
    simp only [BitVec.extractLsb'_toNat, hR0, Nat.shiftRight_eq_div_pow, BitVec.toNat_zero, BitVec.ofNat_eq_ofNat] <;>
    omega

end Sys2Proof.Machine

open Sys2Proof Sys2Proof.Machine

/-- Settles O31: each field is a word or an address of the packed record; X16 holds the flags. -/
theorem commandDataLayout : Obligations.CommandDataLayout := by
  intro c
  have hflag : ∀ i < 32, (commandData c).getLsbD (32 * 16 + i) =
      (flagsWord c.activation c.repeatingBias c.biasEn).getLsbD i := fun i => packedBit (by decide) rfl
  obtain ⟨hactivation, hrepeating, hbias, hzero⟩ := flagsWord_bits c.activation c.repeatingBias c.biasEn
  have habove : (commandData c).extractLsb' (32 * 16 + 3) 29 = 0 := by
    apply BitVec.eq_of_getLsbD_eq
    intro i hi
    rw [← hzero, BitVec.getLsbD_extractLsb', BitVec.getLsbD_extractLsb', Nat.add_assoc, hflag (3 + i) (by omega)]
  exact ⟨rfl, fun k hk => commandData_word c hk,
    packedWord (k := 0) (by decide) rfl, packedWord (k := 1) (by decide) rfl,
    packedWord (k := 2) (by decide) rfl, packedWord (k := 3) (by decide) rfl,
    packedAddr (k := 4) (by decide) rfl, packedAddr (k := 6) (by decide) rfl,
    packedAddr (k := 8) (by decide) rfl, packedAddr (k := 10) (by decide) rfl,
    packedWord (k := 12) (by decide) rfl, packedWord (k := 13) (by decide) rfl,
    packedWord (k := 14) (by decide) rfl, packedWord (k := 15) (by decide) rfl,
    (hflag 0 (by decide)).trans hactivation, (hflag 1 (by decide)).trans hrepeating,
    (hflag 2 (by decide)).trans hbias, habove,
    packedWord (k := 17) (by decide) rfl, packedWord (k := 18) (by decide) rfl⟩

/-- Settles O32: the fields of R0, and the four words of a record as packed words. -/
theorem responseAndTraceLayout : Obligations.ResponseAndTraceLayout := by
  refine ⟨fun r => ?_, fun mode im i j k op => ?_⟩
  · obtain ⟨hstatus, hop, hzero⟩ := responseR0_fields r
    exact ⟨hstatus, hop, hzero, rfl, rfl, rfl, rfl, rfl, rfl⟩
  · exact ⟨packedWord (k := 0) (by decide) rfl, packedWord (k := 1) (by decide) rfl,
      packedWord (k := 2) (by decide) rfl, packedWord (k := 3) (by decide) rfl,
      packedWord (k := 0) (by decide) rfl, packedWord (k := 1) (by decide) rfl,
      packedWord (k := 2) (by decide) rfl, packedWord (k := 3) (by decide) rfl⟩
end

section
/-! The invariant (R68, R69, R136, R171, R185, R205): what the op rules state is in range, and every step keeps it. -/

namespace Sys2Proof.Machine

open Sys2Proof.Safety

/-! ### The ranges of the op rules -/

/-- MANT_NORM as a number: the fraction above the fixed exponent (R101). -/
theorem mantNorm_toNat (b : Word) : (mantNorm b).toNat = 0x3F000000 + (fractionOf b).toNat := by
  have hfixed : (0x3F000000 : Word).toNat = 126 <<< 23 := by decide
  rw [mantNorm, BitVec.toNat_or, BitVec.toNat_setWidth_of_le (by decide), hfixed,
    ← Nat.shiftLeft_add_eq_or_of_lt (fractionOf b).isLt]
  rfl

/-- QSHIFT's result as an integer (R102). -/
theorem shiftCalc_word_toInt (e : BitVec 8) : (bits32 (shiftCalc e)).toInt = 126 - e.toNat := by
  have he := e.isLt
  rw [bits32, BitVec.toInt_ofInt, shiftCalc]
  exact Int.bmod_eq_of_le (by omega) (by omega)

/-- A mode is below `M`, as a residue modulo `M` (R132, R134). -/
theorem modeWord_flooredMod_lt (x : Int) {modes : Nat} (h : 1 ≤ modes ∧ modes ≤ 256) :
    (modeWord (flooredMod x modes)).toNat < modes := by
  have hlow : 0 ≤ flooredMod x modes := Int.emod_nonneg x (by omega)
  have hhigh : flooredMod x modes < modes := Int.emod_lt_of_pos x (by omega)
  rw [modeWord, bits32, BitVec.toNat_ofInt]
  omega

/-- The shift of a valid divisor is at most 30: its sign bit is a leading zero (R131). -/
theorem deriveShift_le {d : Word} (h : isPow2 d = true) : deriveShift d ≤ 30 := by
  have hpos : 0 < d.toInt := by
    rw [isPow2, Bool.and_eq_true, decide_eq_true_eq] at h
    exact h.1
  have hsign : d.getLsbD 31 = false := by
    have hmsb : d.msb = false := by
      rw [BitVec.toInt_eq_msb_cond] at hpos
      have hd := d.isLt
      by_contra hmsb
      rw [Bool.not_eq_false] at hmsb
      rw [hmsb, if_pos rfl] at hpos
      omega
    rwa [BitVec.msb_eq_getLsbD_last] at hmsb
  have hclz : clz32 d = leadingZerosBelow d 31 + 1 := if_neg (by rw [hsign]; decide)
  rw [deriveShift, Config.intW, hclz]
  omega

/-- A valid shift as a word (R131). -/
theorem deriveShift_word_le {d : Word} (h : isPow2 d = true) : (BitVec.ofNat 32 (deriveShift d)).toNat ≤ 30 := by
  have hle := deriveShift_le h
  rw [BitVec.toNat_ofNat]
  omega

/-- The select has the bit of the internal mode and no other (R136). -/
theorem oneHot_bit {m : Nat} (h : m < 256) (j : Nat) : (oneHot m).getLsbD j = decide (j = m) := by
  rw [oneHot, BitVec.getLsbD_ofNat, Nat.testBit_two_pow]
  by_cases hj : j = m
  · simp [hj, h]
  · simp [hj, Ne.symm hj]

/-- The command of a dispatch with a valid divisor is one the QDB may issue (R69, R136). -/
theorem issuedOk_buildIssued {modes : Nat} (hmodes : 1 ≤ modes ∧ modes ≤ 256) {a : DispatchArgs}
    (h : isPow2 a.divisor = true) (relu rep biasEn : Bool) (st : Strides) :
    issuedOk modes (buildIssued modes relu rep biasEn a st) := by
  have hmode : (modeWord (rot modes (intOf a.mode))).toNat < modes := modeWord_flooredMod_lt _ hmodes
  have hselect : (rot modes (intOf a.mode)).toNat = (modeWord (rot modes (intOf a.mode))).toNat := by
    have hlow : 0 ≤ rot modes (intOf a.mode) := Int.emod_nonneg _ (by omega)
    have hhigh : rot modes (intOf a.mode) < modes := Int.emod_lt_of_pos _ (by omega)
    rw [modeWord, bits32, BitVec.toNat_ofInt]
    omega
  refine ⟨hmode, deriveShift_word_le h, rfl, fun j => ?_⟩
  have hbit := oneHot_bit (m := (rot modes (intOf a.mode)).toNat) (by omega) j
  rw [hselect] at hbit
  rw [buildIssued, hselect, hbit]

/-- What a dispatch answers at once is INVALID_ARGUMENT. -/
theorem dispatchVerdict_respond {modes : Nat} {op : DispatchOp} {relu rep biasEn : Bool} {a : DispatchArgs}
    {st : Strides} {r : Response} (h : dispatchVerdict modes op relu rep biasEn a st = .respond r) :
    r = ⟨.invalidArgument, dispatchOpCode op, 0, 0⟩ := by
  unfold dispatchVerdict at h
  split at h
  · cases h
  · cases h
    rfl

/-- What a dispatch forwards is a command the QDB may issue. -/
theorem dispatchVerdict_forward {modes : Nat} (hmodes : 1 ≤ modes ∧ modes ≤ 256) {op op' : DispatchOp}
    {relu rep biasEn : Bool} {a : DispatchArgs} {st : Strides} {records : List TraceRec} {x : Issued}
    (h : dispatchVerdict modes op relu rep biasEn a st = .forward op' records x) : issuedOk modes x := by
  unfold dispatchVerdict at h
  split at h
  · next hvalid =>
    cases h
    exact issuedOk_buildIssued hmodes hvalid relu rep biasEn st
  · cases h

/-- The code of a dispatch op (R62). -/
theorem dispatchOpCode_eq (op : DispatchOp) : dispatchOpCode op = 8 ∨ dispatchOpCode op = 9 := by
  cases op
  · exact .inl rfl
  · exact .inr rfl

/-- A response of a dispatch without a command is one the tables allow (R172). -/
theorem responseOk_invalidDispatch (modes : Nat) (op : DispatchOp) :
    responseOk modes ⟨.invalidArgument, dispatchOpCode op, 0, 0⟩ :=
  ⟨.inr (dispatchOpCode_eq op), rfl, rfl⟩

/-- Every response an op's rule states is one the tables allow, with its ranges (R68, R171), and forwards nothing. -/
theorem responseOk_of_verdict {modes draws : Nat} (hmodes : 1 ≤ modes ∧ modes ≤ 256) {i : Instr} {r : Response}
    (h : verdict modes draws i = .respond r) : responseOk modes r ∧ ¬ forwarded r := by
  cases i with
  | quant b =>
    simp only [verdict] at h
    split at h <;> cases h <;> simp [responseOk, forwarded]
  | qexp b =>
    cases h
    have he := (expExtract b).isLt
    have hrange : (expExtract b).toNat % 2 ^ 32 ≤ 255 := by omega
    simpa [responseOk, forwarded] using hrange
  | qnorm b =>
    cases h
    have hf := (fractionOf b).isLt
    have hrange : 0x3F000000 ≤ (mantNorm b).toNat ∧ (mantNorm b).toNat < 0x3F800000 := by
      rw [mantNorm_toNat]
      omega
    simpa [responseOk, forwarded] using hrange
  | qshift e =>
    cases h
    have he := e.isLt
    have hrange : -129 ≤ (bits32 (shiftCalc e)).toInt ∧ (bits32 (shiftCalc e)).toInt ≤ 126 := by
      rw [shiftCalc_word_toInt]
      omega
    simpa [responseOk, forwarded] using hrange
  | dshift d =>
    simp only [verdict] at h
    split at h
    · next hvalid =>
      cases h
      simpa [responseOk, forwarded] using deriveShift_word_le hvalid
    · cases h
      simp [responseOk, forwarded]
  | mrot m =>
    cases h
    have hlt : (bits32 (rot modes (intOf m))).toNat < modes := modeWord_flooredMod_lt _ hmodes
    simpa [responseOk, forwarded] using hlt
  | munrot m =>
    cases h
    have hlt : (bits32 (unrot modes (intOf m))).toNat < modes := modeWord_flooredMod_lt _ hmodes
    simpa [responseOk, forwarded] using hlt
  | dispc relu biasEn a =>
    rw [dispatchVerdict_respond h]
    exact ⟨responseOk_invalidDispatch modes _, by simp [forwarded]⟩
  | disps relu rep biasEn a st =>
    rw [dispatchVerdict_respond h]
    exact ⟨responseOk_invalidDispatch modes _, by simp [forwarded]⟩

/-- Every command an op's rule forwards is one the QDB may issue (R69, R136). -/
theorem issuedOk_of_verdict {modes draws : Nat} (hmodes : 1 ≤ modes ∧ modes ≤ 256) {i : Instr} {op : DispatchOp}
    {records : List TraceRec} {x : Issued} (h : verdict modes draws i = .forward op records x) : issuedOk modes x := by
  cases i with
  | dispc relu biasEn a => exact dispatchVerdict_forward hmodes h
  | disps relu rep biasEn a st => exact dispatchVerdict_forward hmodes h
  | quant b | dshift b => simp only [verdict] at h; split at h <;> cases h
  | qexp b | qnorm b | qshift b | mrot b | munrot b => cases h

end Sys2Proof.Machine

namespace Sys2Proof.Safety

open Sys2Proof.Machine

/-! ### The updates of a state that keep the invariant -/

/-- Showing what is due leaves what a phase may hold. -/
theorem phaseOk_showNext (modes : Nat) (p : Phase) (loan : Option ExecCmd) :
    phaseOk modes (showNext p) loan ↔ phaseOk modes p loan := by
  cases p with
  | waitExec f st => cases st <;> rfl
  | idle => rfl
  | recv ws => rfl
  | resp r k shown => rfl

/-- The records of one more command still belong to the commands (R185). -/
theorem tracesMatch_append {traced : List TraceRec} {issued : List Issued} (h : tracesMatch traced issued)
    (f : Flight) :
    tracesMatch (traced ++ [backendRecord f] ++ [dimsRecord f]) (issued ++ [f.issued]) := by
  obtain ⟨fs, rfl, rfl⟩ := h
  exact ⟨fs ++ [f], by simp, by simp⟩

variable {s : State}

/-- Another phase that fits the loan. -/
theorem Inv.withPhase (h : Inv s) (hr : s.inReset = false) (p : Phase) (hp : phaseOk (numModes s) p s.loan)
    (draws : Nat) : Inv { s with phase := p, draws := draws } :=
  { h with
    phaseFits := hp
    resetIdle := fun ht => absurd (hr.symm.trans ht) Bool.false_ne_true }

/-- An abandoned transaction (R200, R201). -/
theorem Inv.abandon (h : Inv s) (b : Bool) : Inv (abandon b s) :=
  { h with
    phaseFits := rfl
    resetIdle := fun _ => rfl }

/-- The other agents act (R8). -/
theorem Inv.afterOthers (h : Inv s) (e : Edge) (rest : List Edge) : Inv (afterOthers s e rest) := by
  obtain ⟨hmem, hpending⟩ := aroundAfter_wf e h.memoryOk h.pendingOk
  exact { h with memoryOk := hmem, pendingOk := hpending }

/-- The QDB shows what is due, or not (R30). -/
theorem Inv.moveOn (h : Inv s) (advance : Bool) :
    Inv { s with phase := if advance then showNext s.phase else s.phase } :=
  { h with
    phaseFits := by
      cases advance with
      | false => exact h.phaseFits
      | true => exact (phaseOk_showNext _ _ _).2 h.phaseFits
    resetIdle := fun hr => by
      have hidle : s.phase = .idle := h.resetIdle hr
      cases advance <;> simp [hidle, showNext] }

/-- A response is delivered (R26, R205). -/
theorem Inv.deliver (h : Inv s) {r : Response} (hr : responseOk (numModes s) r) : Inv (deliver r s) :=
  { h with
    responsesOk := fun x hx => by
      rcases List.mem_append.1 hx with hx | hx
      · exact h.responsesOk x hx
      · rw [List.mem_singleton.1 hx]
        exact hr
    phaseFits := rfl
    resetIdle := fun _ => rfl }

/-- A dispatch is accepted (R139). -/
theorem Inv.accepted (h : Inv s) (hr : s.inReset = false) {f : Flight} (hf : issuedOk (numModes s) f.issued) :
    Inv (accepted f s) :=
  { h with
    commandsOk := fun x hx => by
      rcases List.mem_append.1 hx with hx | hx
      · exact h.commandsOk x hx
      · rw [List.mem_singleton.1 hx]
        exact hf
    tracesOk := tracesMatch_append h.tracesOk f
    phaseFits := ⟨hf, rfl⟩
    resetIdle := fun ht => absurd (hr.symm.trans ht) Bool.false_ne_true }

/-! ### An edge without reset, phase by phase -/

/-- While words of a packet are received nothing is on loan (R205). -/
theorem Inv.loan_of_received (h : Inv s) {before : List Word} (hp : received s before) : s.loan = none := by
  have hfits := h.phaseFits
  rcases hp with hp | ⟨hp, -⟩
  · rw [hp] at hfits
    exact hfits.2
  · rw [hp] at hfits
    exact hfits

/-- A response that forwards nothing fits a phase with nothing on loan. -/
theorem Inv.withResponse (h : Inv s) (hr : s.inReset = false) (hloan : s.loan = none) {r : Response}
    (hok : responseOk (numModes s) r) (hnot : ¬ forwarded r) (draws : Nat) :
    Inv { s with phase := .resp r 0 false, draws := draws } :=
  h.withPhase hr (.resp r 0 false) ⟨hok, iff_of_false (by simp [hloan]) hnot⟩ draws

/-- An op keeps the invariant. -/
theorem Inv.exec (h : Inv s) (hr : s.inReset = false) (hloan : s.loan = none) {i : Instr} {t : State}
    (ht : exec i s = .next t) : Inv t := by
  obtain ⟨r, hv, hexec⟩ | ⟨f, hv, hexec⟩ := exec_cases i s
  · cases hexec.symm.trans ht
    obtain ⟨hok, hnot⟩ := responseOk_of_verdict (numModes_bounds s) hv
    exact h.withResponse hr hloan hok hnot _
  · cases hexec.symm.trans ht
    exact h.accepted hr (issuedOk_of_verdict (numModes_bounds s) hv)

/-- So does the arrival of a packet. -/
theorem Inv.acceptPacket (h : Inv s) (hr : s.inReset = false) (hloan : s.loan = none) {p : List Word} {t : State}
    (ht : acceptPacket p s = .next t) : Inv t := by
  obtain ⟨i, -, hi⟩ | ⟨x, -, hx⟩ := acceptPacket_cases p s
  · exact h.exec hr hloan (hi.symm.trans ht)
  · cases hx.symm.trans ht
    have hnot : ¬ forwarded ⟨.illegalOperation, echoedOp p, 0, 0⟩ := by simp [forwarded]
    have hok : responseOk (numModes s) ⟨.illegalOperation, echoedOp p, 0, 0⟩ := ⟨rfl, rfl⟩
    exact h.withResponse hr hloan hok hnot s.draws

/-- So does an edge at which words of a packet are received. -/
theorem Inv.receiving (h : Inv s) (hr : s.inReset = false) {before : List Word} (hp : received s before) {e : Edge}
    {u : State} (hu : phaseEdge e s = .next u) : Inv u := by
  have hloan := h.loan_of_received hp
  cases hv : e.reqValid with
  | false =>
    cases (phaseEdge_gap hp hv).symm.trans hu
    exact h
  | true =>
    cases hl : e.reqLast with
    | false =>
      cases (phaseEdge_word hp hv hl).symm.trans hu
      exact h.withPhase hr (.recv _) ⟨by simp, hloan⟩ s.draws
    | true => exact h.acceptPacket hr hloan ((phaseEdge_lastWord hp hv hl).symm.trans hu)

/-- The response to a completion is one the tables allow, of a dispatch that was forwarded (R68, R173). -/
theorem responseOk_completion (modes : Nat) (op : DispatchOp) (ok : Bool) (err : Word) :
    responseOk modes ⟨if ok then .ok else .executorFailure, dispatchOpCode op, if ok then 0 else err, 0⟩ ∧
      forwarded ⟨if ok then .ok else .executorFailure, dispatchOpCode op, if ok then 0 else err, 0⟩ := by
  cases op <;> cases ok <;> simp [responseOk, forwarded, dispatchOpCode, opCodeBits]

/-- So does an edge at which a dispatch is in flight. -/
theorem Inv.waiting (h : Inv s) (hr : s.inReset = false) {f : Flight} {st : Stage} (hp : s.phase = .waitExec f st)
    {e : Edge} {u : State} (hu : phaseEdge e s = .next u) : Inv u := by
  have hfits := h.phaseFits
  rw [hp] at hfits
  obtain ⟨hissued, hloan⟩ := hfits
  cases hd : e.doneValid with
  | false =>
    cases (phaseEdge_waiting hp hd).symm.trans hu
    exact h.withPhase hr (.waitExec f _) ⟨hissued, hloan⟩ s.draws
  | true =>
    cases (phaseEdge_completion hp hd).symm.trans hu
    obtain ⟨hok, hforwarded⟩ := responseOk_completion (numModes s) f.op e.doneOk e.doneErr
    exact h.withPhase hr (.resp _ 0 false) ⟨hok, iff_of_true (by simp [hloan]) hforwarded⟩ s.draws

/-- So does an edge at which a response is to be taken. -/
theorem Inv.responding (h : Inv s) (hr : s.inReset = false) {r : Response} {k : Fin 3} {shown : Bool}
    (hp : s.phase = .resp r k shown) {e : Edge} {u : State} (hu : phaseEdge e s = .next u) : Inv u := by
  have hfits := h.phaseFits
  rw [hp] at hfits
  obtain ⟨hok, hloan⟩ := hfits
  by_cases ht : shown = true ∧ e.rspReady = true
  · cases (phaseEdge_taking hp ht).symm.trans hu
    by_cases hk : k = 2
    · rw [takeResponseWord, if_pos hk]
      exact h.deliver hok
    · rw [takeResponseWord, if_neg hk]
      exact h.withPhase hr (.resp r _ false) ⟨hok, hloan⟩ s.draws
  · cases (phaseEdge_holding hp ht).symm.trans hu
    exact h

/-- The QDB's side of an edge without reset keeps the invariant. -/
theorem Inv.phaseEdge (h : Inv s) (hr : s.inReset = false) {e : Edge} {u : State} (hu : phaseEdge e s = .next u) :
    Inv u := by
  cases hp : s.phase with
  | idle => exact h.receiving hr (.inr ⟨hp, rfl⟩) hu
  | recv ws => exact h.receiving hr (.inl hp) hu
  | waitExec f st => exact h.waiting hr hp hu
  | resp r k shown => exact h.responding hr hp hu

/-- Every edge keeps the invariant. -/
theorem Inv.clockEdge (h : Inv s) {e : Edge} {t : State} (ht : clockEdge e s = .next t) : Inv t := by
  have hothers := h.afterOthers e s.inbox
  cases hr : e.rst with
  | true =>
    cases (clockEdge_reset s hr).symm.trans ht
    exact hothers.abandon true
  | false =>
    cases hs : s.inReset with
    | true =>
      cases (clockEdge_release hr hs).symm.trans ht
      exact hothers.abandon false
    | false =>
      obtain ⟨u, hu, -⟩ := phaseEdge_next e (Machine.afterOthers s e s.inbox)
      have hstep : Machine.clockEdge e s = _ :=
        (clockEdge_running hr hs).trans ((congrArg _ hu).trans (moveOn_next e u))
      cases hstep.symm.trans ht
      exact (hothers.phaseEdge hs hu).moveOn e.advance

end Sys2Proof.Safety

open Sys2Proof.Machine Sys2Proof.Safety

/-- Settles O55: a step is an edge, scheduled or quiet, and every edge keeps the invariant. -/
theorem everyStepKeepsInvariant : Obligations.EveryStepKeepsInvariant := by
  intro s t h ht
  cases hi : s.inbox with
  | nil => exact h.clockEdge ((step_of_empty hi).symm.trans ht)
  | cons e rest =>
    have hdue : Inv { s with inbox := rest } := { h with }
    exact hdue.clockEdge ((step_of_inbox hi).symm.trans ht)
end

section
/-! The quantizer (R100 to R112): the fields of a pattern, its value, the domain, and the pair QUANT answers. -/

namespace Sys2Proof.Machine

/-! ### The fields of a pattern as numbers (R14) -/

/-- The sign is bit 31, which is 0 below `2^31`. -/
theorem signOf_eq_false_iff (b : Word) : signOf b = false ↔ b.toNat < 2 ^ 31 := by
  rw [signOf, BitVec.getLsbD, Nat.testBit_eq_decide_div_mod_eq, decide_eq_false_iff_not]
  have := b.isLt
  omega

/-- The exponent as a number: bits [30:23]. -/
theorem exponentOf_toNat (b : Word) : (exponentOf b).toNat = b.toNat / 2 ^ 23 % 2 ^ 8 := by
  rw [exponentOf, BitVec.extractLsb'_toNat, Nat.shiftRight_eq_div_pow]

/-- Which exponent a pattern has, asked of its number. -/
theorem exponentOf_eq_iff (b : Word) (e : BitVec 8) : exponentOf b = e ↔ b.toNat / 2 ^ 23 % 2 ^ 8 = e.toNat := by
  rw [← BitVec.toNat_inj, exponentOf_toNat]

/-- The fraction as a number: bits [22:0]. -/
theorem fractionOf_toNat (b : Word) : (fractionOf b).toNat = b.toNat % 2 ^ 23 := by
  rw [fractionOf, BitVec.extractLsb'_toNat, Nat.shiftRight_zero]

/-- When the fraction is 0, asked of the pattern's number. -/
theorem fractionOf_eq_zero_iff (b : Word) : fractionOf b = 0 ↔ b.toNat % 2 ^ 23 = 0 := by
  rw [← BitVec.toNat_inj, fractionOf_toNat]
  rfl

/-! ### The fields of a bumped pattern (R101) -/

/-- The `or` of R101 is a sum, as the fraction lies below the fixed bits. -/
theorem mantNorm_eq_ofNat (b : Word) : mantNorm b = BitVec.ofNat 32 (0x3F000000 + b.toNat % 2 ^ 23) := by
  apply BitVec.eq_of_toNat_eq
  rw [mantNorm_toNat, fractionOf_toNat, BitVec.toNat_ofNat]
  omega

/-- The fixed exponent (R101). -/
@[simp] theorem exponentOf_mantNorm (b : Word) : exponentOf (mantNorm b) = 126 := by
  have := (fractionOf b).isLt
  rw [exponentOf_eq_iff, mantNorm_toNat]
  change _ = 126
  omega

/-- The fraction is kept (R101). -/
@[simp] theorem fractionOf_mantNorm (b : Word) : fractionOf (mantNorm b) = fractionOf b := by
  have := (fractionOf b).isLt
  apply BitVec.eq_of_toNat_eq
  rw [fractionOf_toNat, mantNorm_toNat]
  omega

/-- The sign does not matter (R101). -/
theorem mantNorm_flipSign (b : Word) : mantNorm (b ^^^ 0x80000000) = mantNorm b := by
  have hsign : (0x80000000 : Word).extractLsb' 0 23 = 0#23 := by decide
  rw [mantNorm, mantNorm, fractionOf, BitVec.extractLsb'_xor, hsign, BitVec.xor_zero, fractionOf]

/-! ### MULT_SCALE of a bumped pattern (R103) -/

/-- The significand with the implicit bit, shifted by 7 (R103). -/
theorem multScale_mantNorm (b : Word) : multScale (mantNorm b) = (2 ^ 23 + (b.toNat % 2 ^ 23 : Nat)) * 2 ^ 7 := by
  have hone : (0x00800000 : Word).toNat = 1 <<< 23 := by decide
  rw [multScale, fractionOf_mantNorm, BitVec.toNat_or, BitVec.toNat_setWidth_of_le (by decide), hone,
    ← Nat.shiftLeft_add_eq_or_of_lt (fractionOf b).isLt, fractionOf_toNat, Nat.cast_add]
  rfl

/-- Its range, in which it fits a word (R103). -/
theorem multScale_mantNorm_range (b : Word) :
    2 ^ 30 ≤ multScale (mantNorm b) ∧ multScale (mantNorm b) ≤ 2 ^ 31 - 2 ^ 7 := by
  rw [multScale_mantNorm]
  omega

/-! ### The value of a pattern (R14) -/

/-- The model's `2^k` is the library's, to which its laws belong. -/
theorem twoPow_eq_zpow (k : Int) : twoPow k = (2 : Rat) ^ k := by
  unfold twoPow
  split
  · next h =>
    obtain ⟨n, rfl⟩ := Int.eq_ofNat_of_zero_le h
    simp
  · next h =>
    obtain ⟨n, hn⟩ := Int.eq_ofNat_of_zero_le (a := -k) (by omega)
    obtain rfl : k = -n := by omega
    simp

theorem twoPow_pos (k : Int) : 0 < twoPow k := by
  rw [twoPow_eq_zpow]
  positivity

theorem twoPow_add (j k : Int) : twoPow (j + k) = twoPow j * twoPow k := by
  simp only [twoPow_eq_zpow, zpow_add₀ (two_ne_zero' Rat)]

theorem twoPow_add_one (k : Int) : twoPow (k + 1) = 2 * twoPow k := by
  rw [twoPow_add, twoPow_eq_zpow 1, zpow_one, mul_comm]

/-- An infinity or a NaN has no finite value. -/
theorem f32val_special {b : Word} (h : exponentOf b = 255) (q : Rat) : f32val b ≠ .finite q := by
  rw [f32val, if_pos h]
  split <;> exact nofun

/-- The value with exponent 0, of either sign. -/
theorem f32val_subnormal {b : Word} (h : exponentOf b = 0) :
    f32val b = .finite ((if signOf b then -1 else 1) * ((fractionOf b).toNat : Rat) * twoPow (-149)) := by
  rw [f32val, if_neg (by rw [h]; decide), if_pos h]

/-- The value with an exponent from 1 to 254, of either sign. -/
theorem f32val_normal {b : Word} (h : exponentOf b ≠ 255) (h' : exponentOf b ≠ 0) :
    f32val b = .finite ((if signOf b then -1 else 1) * ((2 ^ 23 + (fractionOf b).toNat : Nat) : Rat) *
      twoPow ((exponentOf b).toNat - 150)) := by
  rw [f32val, if_neg h, if_neg h']

/-- The value of a positive normal pattern, which is in the range of R105. -/
theorem f32val_of_positive_normal {b : Word} (hlow : 2 ^ 23 ≤ b.toNat) (hhigh : b.toNat < 0x7F800000) :
    f32val b = .finite (((2 ^ 23 + (fractionOf b).toNat : Nat) : Rat) * twoPow ((exponentOf b).toNat - 150)) := by
  have hsign : signOf b = false := by rw [signOf_eq_false_iff]; omega
  have hspecial : exponentOf b ≠ 255 := by rw [ne_eq, exponentOf_eq_iff]; bv_omega
  have hsub : exponentOf b ≠ 0 := by rw [ne_eq, exponentOf_eq_iff]; bv_omega
  simp [f32val_normal hspecial hsub, hsign]

/-- The fields and the value of a positive subnormal pattern, or of +0: the pattern is its own fraction (R106). -/
theorem f32val_of_positive_subnormal {b : Word} (h : b.toNat < 2 ^ 23) :
    exponentOf b = 0 ∧ (fractionOf b).toNat = b.toNat ∧ f32val b = .finite ((b.toNat : Rat) * twoPow (-149)) := by
  have hsign : signOf b = false := by rw [signOf_eq_false_iff]; omega
  have hsub : exponentOf b = 0 := by rw [exponentOf_eq_iff]; bv_omega
  have hfrac : (fractionOf b).toNat = b.toNat := by rw [fractionOf_toNat]; omega
  exact ⟨hsub, hfrac, by simp [f32val_subnormal hsub, hsign, hfrac]⟩

/-- The value of a bumped pattern (R101): its exponent 126 makes the unit of the significand `2^(−24)`. -/
theorem f32val_mantNorm (b : Word) :
    f32val (mantNorm b) = .finite (((2 ^ 23 + (fractionOf b).toNat : Nat) : Rat) / 2 ^ 24) := by
  have hF := (fractionOf b).isLt
  have hunit : twoPow ((126 : BitVec 8).toNat - 150) = (2 ^ 24)⁻¹ := by
    change twoPow (-24) = _
    rw [twoPow_eq_zpow]
    norm_num
  rw [f32val_of_positive_normal (by rw [mantNorm_toNat]; omega) (by rw [mantNorm_toNat]; omega), fractionOf_mantNorm,
    exponentOf_mantNorm, hunit, div_eq_mul_inv]

/-- A signed multiple of a power of two is positive exactly without the sign and unless it is zero. -/
theorem signed_pos_iff (negative : Bool) (m : Nat) (k : Int) :
    0 < (if negative then -1 else 1) * (m : Rat) * twoPow k ↔ negative = false ∧ 0 < m := by
  rw [mul_pos_iff_of_pos_right (twoPow_pos k)]
  cases negative with
  | false => simp
  | true => simp

/-! ### The domain (R104) -/

/-- R104's formula on the fields. -/
theorem inDomain_iff_fields (b : Word) :
    inDomain b = true ↔ signOf b = false ∧ exponentOf b ≠ 255 ∧ ¬(exponentOf b = 0 ∧ fractionOf b = 0) := by
  simp [inDomain, and_assoc, imp_iff_not_or]

/-- R104's formula on the pattern's number. -/
theorem inDomain_iff_numbers (b : Word) :
    inDomain b = true ↔ b.toNat / 2 ^ 31 = 0 ∧ b.toNat / 2 ^ 23 % 256 ≠ 255 ∧
      ¬(b.toNat / 2 ^ 23 % 256 = 0 ∧ b.toNat % 2 ^ 23 = 0) := by
  rw [inDomain_iff_fields, signOf_eq_false_iff, ne_eq, exponentOf_eq_iff, exponentOf_eq_iff, fractionOf_eq_zero_iff,
    Nat.div_eq_zero_iff_lt (by decide)]
  rfl

/-- The patterns in domain are those from 1 to below the pattern of +∞. -/
theorem inDomain_iff_range (b : Word) : inDomain b = true ↔ 0 < b.toNat ∧ b.toNat < 0x7F800000 := by
  rw [inDomain_iff_numbers]
  omega

/-- The domain by value: special patterns have no finite one, and of the others the sign and, with exponent 0, the
fraction decide. -/
theorem inDomain_iff_finite_pos (b : Word) : inDomain b = true ↔ ∃ q, f32val b = .finite q ∧ 0 < q := by
  rw [inDomain_iff_fields]
  by_cases hspecial : exponentOf b = 255
  · simp [hspecial, f32val_special hspecial]
  by_cases hsub : exponentOf b = 0
  · have hfrac : fractionOf b ≠ 0 ↔ 0 < (fractionOf b).toNat := by
      rw [ne_eq, ← BitVec.toNat_inj, Nat.pos_iff_ne_zero]
      rfl
    simp only [f32val_subnormal hsub, FloatValue.finite.injEq, exists_eq_left', signed_pos_iff]
    simp [hsub, ← hfrac]
  · simp only [f32val_normal hspecial hsub, FloatValue.finite.injEq, exists_eq_left', signed_pos_iff]
    have hpos : 0 < 2 ^ 23 + (fractionOf b).toNat := Nat.add_pos_left (by decide) _
    simp only [hspecial, hsub, hpos, ne_eq, not_false_eq_true, false_and, and_true]

/-! ### What the four ops answer (R107 to R110) -/

/-- R1 of QUANT in domain (R107). -/
def quantR1 (b : Word) : Word := bits32 (multScale (mantNorm b))

/-- R2 of QUANT in domain (R107). -/
def quantR2 (b : Word) : Word := bits32 (shiftCalc (expExtract b))

/-- QUANT (R107): the pair of the algorithm, or two draws. -/
theorem exec_quant (b : Word) (s : State) : exec (.quant b) s =
    if inDomain b then
      .next { s with phase := .resp ⟨.ok, 1, quantR1 b, quantR2 b⟩ 0 false }
    else
      .next { s with
        draws := s.draws + 2
        phase := .resp ⟨.ok, 1, Config.draw32 s.draws, Config.draw32 (s.draws + 1)⟩ 0 false } := rfl

/-- QUANT in domain (R107). -/
theorem exec_quant_of_inDomain {b : Word} (h : inDomain b = true) (s : State) : exec (.quant b) s =
    .next { s with phase := .resp ⟨.ok, 1, quantR1 b, quantR2 b⟩ 0 false } := by
  rw [exec_quant, if_pos h]

/-- QEXP (R108). -/
theorem exec_qexp (b : Word) (s : State) :
    exec (.qexp b) s = .next { s with phase := .resp ⟨.ok, 2, (expExtract b).setWidth 32, 0⟩ 0 false } := rfl

/-- QNORM (R109). -/
theorem exec_qnorm (b : Word) (s : State) :
    exec (.qnorm b) s = .next { s with phase := .resp ⟨.ok, 3, mantNorm b, 0⟩ 0 false } := rfl

/-- QSHIFT (R110). -/
theorem exec_qshift (e : BitVec 8) (s : State) :
    exec (.qshift e) s = .next { s with phase := .resp ⟨.ok, 4, bits32 (shiftCalc e), 0⟩ 0 false } := rfl

/-- QSHIFT's packet decodes exactly if its operand word fits a byte (R67). -/
theorem decode_qshift (w : Word) : decode [0x00000004, w] =
    if w.toNat < 256 then .ok (.qshift (BitVec.ofNat 8 w.toNat)) else .error .reservedOperandBits := by
  have hlow : w.extractLsb' 0 8 = BitVec.ofNat 8 w.toNat := by rw [BitVec.extractLsb', Nat.shiftRight_zero]
  have hoperands := decode_headerWord (reservedHeaderSet_plain .qshift) [w]
  rw [decodeOperands] at hoperands
  simp only [qshiftReserved_iff, hlow] at hoperands
  exact hoperands

/-- R1 as an integer: MULT_SCALE fits a word, so narrowing loses nothing (R103). -/
theorem quantR1_toInt (b : Word) : (quantR1 b).toInt = (2 ^ 23 + (b.toNat % 2 ^ 23 : Nat)) * 2 ^ 7 := by
  rw [quantR1, bits32, BitVec.toInt_ofInt, multScale_mantNorm]
  exact Int.bmod_eq_of_le (by omega) (by omega)

/-- R2 as an integer (R102). -/
theorem quantR2_toInt (b : Word) : (quantR2 b).toInt = 126 - (b.toNat / 2 ^ 23 % 2 ^ 8 : Nat) := by
  rw [quantR2, shiftCalc_word_toInt, expExtract, exponentOf_toNat]

/-- What QUANT's pair reconstructs: the significand with the implicit bit, whatever the exponent (R105, R106). -/
theorem quantPair_value (b : Word) :
    ((quantR1 b).toInt : Rat) * twoPow (-31) * twoPow (-(quantR2 b).toInt) =
      ((2 ^ 23 + (fractionOf b).toNat : Nat) : Rat) * twoPow ((exponentOf b).toNat - 150) := by
  have hscale : twoPow ((exponentOf b).toNat - 150) =
      2 ^ 7 * twoPow (-31) * twoPow (-(126 - (exponentOf b).toNat)) := by
    have hseven : (2 : Rat) ^ 7 = twoPow 7 := (twoPow_eq_zpow 7).symm
    rw [hseven, ← twoPow_add, ← twoPow_add]
    congr 1
    omega
  rw [quantR1_toInt, quantR2_toInt, ← exponentOf_toNat, ← fractionOf_toNat, hscale]
  push_cast
  ring

end Sys2Proof.Machine

open Sys2Proof Sys2Proof.Machine

/-- Settles O9: the result is in range, and the packet decodes exactly if its operand word fits a byte. -/
theorem qshiftAnswersShift : Obligations.QshiftAnswersShift := by
  refine ⟨fun e s => ⟨exec_qshift e s, shiftCalc_word_toInt e⟩, fun w1 s => ?_⟩
  rw [acceptPacket, decode_qshift]
  split
  · rfl
  · rfl

/-- Settles O10: the domain is a range of patterns, in which the sign bit is 0. -/
theorem quantAnswersPairOrDraws : Obligations.QuantAnswersPairOrDraws := by
  refine fun b s => ⟨decode_encode (.quant b), ?_⟩
  rw [exec_quant]
  simp only [inDomain_iff_range]
  split
  · next hb =>
    have hexp : b.toNat / 2 ^ 23 % 2 ^ 8 = b.toNat / 2 ^ 23 := by omega
    rw [quantR1, quantR2, multScale_mantNorm, shiftCalc, expExtract, exponentOf_toNat, hexp, bits32, bits32,
      ← BitVec.ofInt_natCast]
    push_cast
    rfl
  · rfl

/-- Settles O11: by the kind of pattern (special, subnormal, normal) for the value, field by field for the formula. -/
theorem domainIsFinitePositive : Obligations.DomainIsFinitePositive :=
  fun b => ⟨inDomain_iff_finite_pos b, inDomain_iff_numbers b⟩

/-- Settles O12: the bumped pattern is a positive normal one with exponent 126 and the same fraction. -/
theorem bumpedPatternScalesExactly : Obligations.BumpedPatternScalesExactly := by
  intro b
  obtain ⟨hlow, hhigh⟩ := multScale_mantNorm_range b
  refine ⟨_, mantNorm_eq_ofNat b, f32val_mantNorm b, ?_, ?_, ?_, mantNorm_flipSign b, multScale_mantNorm b, ?_,
    hlow, hhigh⟩
  · rw [fractionOf_toNat]
  · have hnonneg : (0 : Rat) ≤ (fractionOf b).toNat := Nat.cast_nonneg _
    push_cast
    linarith
  · have hlt := (fractionOf b).isLt
    have hmax : ((2 ^ 23 + (fractionOf b).toNat : Nat) : Rat) ≤ (2 ^ 24 - 1 : Nat) := Nat.cast_le.2 (by omega)
    push_cast at hmax ⊢
    linarith
  · rw [multScale_mantNorm, ← fractionOf_toNat]
    push_cast
    ring

/-- Settles O13: what the pair reconstructs is the value of a positive normal pattern. -/
theorem quantIsExactOnNormals : Obligations.QuantIsExactOnNormals := by
  intro b s hlow hhigh
  refine ⟨_, _, exec_quant_of_inDomain ((inDomain_iff_range b).2 ⟨by omega, hhigh⟩) s, ?_⟩
  rw [quantPair_value, f32val_of_positive_normal hlow hhigh]

/-- Settles O14: the pair reconstructs `(2^23 + F) · 2^(−150)`, and the value is `F · 2^(−149)`, that is
`2F · 2^(−150)`. -/
theorem quantOverstatesSubnormals : Obligations.QuantOverstatesSubnormals := by
  intro b s hpos hlt
  have hr1 := quantR1_toInt b
  have hr2 := quantR2_toInt b
  obtain ⟨hsub, hfrac, hvalue⟩ := f32val_of_positive_subnormal hlt
  have hexp : twoPow ((0 : BitVec 8).toNat - 150) = twoPow (-150) := rfl
  have hpair := quantPair_value b
  rw [hsub, hfrac, hexp] at hpair
  have hunit : twoPow (-149) = 2 * twoPow (-150) := by
    rw [← twoPow_add_one]
    norm_num
  have hdom : inDomain b = true := (inDomain_iff_range b).2 ⟨hpos, by omega⟩
  refine ⟨_, _, _, exec_quant_of_inDomain hdom s, by omega, by omega, hvalue, ?_, ?_⟩
  · have hne : (b.toNat : Rat) ≠ 0 := Nat.cast_ne_zero.2 hpos.ne'
    rw [hpair, hunit]
    push_cast
    field_simp
    ring
  · have hless : (b.toNat : Rat) * 2 < (2 ^ 23 + b.toNat : Nat) := by
      exact_mod_cast (by omega : b.toNat * 2 < 2 ^ 23 + b.toNat)
    rw [hpair, hunit, ← mul_assoc]
    exact mul_lt_mul_of_pos_right hless (twoPow_pos _)

/-- Settles O15: the ranges of the pair's two integers. -/
theorem quantResultRanges : Obligations.QuantResultRanges := by
  intro b s hb
  have hr1 := quantR1_toInt b
  have hr2 := quantR2_toInt b
  refine ⟨_, _, exec_quant_of_inDomain hb s, ?_⟩
  rw [inDomain_iff_range] at hb
  rw [hr1, hr2]
  omega

/-- Settles O7: the exponent field is bits [30:23] as a number. -/
theorem qexpAnswersBiasedExponent : Obligations.QexpAnswersBiasedExponent := by
  refine fun b s => ⟨decode_encode (.qexp b), ?_⟩
  have hr1 : (expExtract b).setWidth 32 = BitVec.ofNat 32 (b.toNat / 2 ^ 23 % 2 ^ 8) := by
    rw [← exponentOf_toNat, BitVec.ofNat_toNat, expExtract]
  rw [exec_qexp, hr1]

/-- Settles O8: MANT_NORM as a number. -/
theorem qnormAnswersBumpedPattern : Obligations.QnormAnswersBumpedPattern := by
  refine fun b s => ⟨decode_encode (.qnorm b), ?_⟩
  rw [exec_qnorm, mantNorm_eq_ofNat]

/-- Settles O16: QEXP's answer is QSHIFT's operand, and the two ops and QNORM are the parts of QUANT's pair. -/
theorem subUnitsCompose : Obligations.SubUnitsCompose := by
  intro b s
  have he : ((expExtract b).setWidth 32).toNat = (expExtract b).toNat := BitVec.toNat_setWidth_of_le (by decide)
  refine ⟨_, _, _, exec_qnorm b s, exec_qexp b s, ?_, exec_qshift _ s, ?_⟩
  · rw [he]
    exact (expExtract b).isLt
  · rw [he, BitVec.ofNat_toNat, BitVec.setWidth_eq]
    exact exec_quant b s
end

section
/-! The dispatcher's arithmetic (R130 to R136): which words are valid divisors, their shift, and the mode rotation. -/

namespace Sys2Proof.Machine

/-! ### Valid divisors (R130, R131) -/

/-- POW2 on the divisor's number: a positive `i32` is one below `2^31`, and there the `d − 1` of R130 does not borrow. -/
theorem isPow2_iff_numbers (d : Word) :
    isPow2 d = true ↔ d.toNat < 2 ^ 31 ∧ d.toNat ≠ 0 ∧ d.toNat &&& (d.toNat - 1) = 0 := by
  have hpositive : 0 < d.toInt ↔ d.toNat < 2 ^ 31 ∧ d.toNat ≠ 0 := by
    rw [BitVec.toInt_eq_toNat_cond]
    split <;> omega
  have hmask (hne : d.toNat ≠ 0) : d &&& (d - 1) = 0 ↔ d.toNat &&& (d.toNat - 1) = 0 := by
    have hpred : (d - 1).toNat = d.toNat - 1 := by bv_omega
    rw [← BitVec.toNat_inj, BitVec.toNat_and, hpred]
    rfl
  rw [isPow2, Bool.and_eq_true, decide_eq_true_eq, beq_iff_eq, hpositive, and_assoc]
  exact and_congr_right fun _ => and_congr_right hmask

/-- The valid divisors are the powers of two up to `2^30` (R130). -/
theorem isPow2_iff (d : Word) : isPow2 d = true ↔ ∃ k ≤ 30, d.toNat = 2 ^ k := by
  rw [isPow2_iff_numbers, Nat.ne_zero_and_sub_one_eq_zero_iff_isPowerOfTwo]
  constructor
  · rintro ⟨hlt, k, hk⟩
    have hexp : k < 31 := (Nat.pow_lt_pow_iff_right (by decide)).1 (hk ▸ hlt)
    exact ⟨k, by omega, hk⟩
  · rintro ⟨k, hle, hk⟩
    have hlt : 2 ^ k < 2 ^ 31 := Nat.pow_lt_pow_right (by decide) (by omega)
    exact ⟨hk ▸ hlt, k, hk⟩

/-- Such a power is a valid divisor. -/
theorem isPow2_of_twoPow {d : Word} {k : Nat} (hk : k ≤ 30) (h : d.toNat = 2 ^ k) : isPow2 d = true :=
  (isPow2_iff d).2 ⟨k, hk, h⟩

/-- A word that is none of these powers is no valid divisor. -/
theorem isPow2_eq_false {d : Word} (h : ∀ k ≤ 30, d.toNat ≠ 2 ^ k) : isPow2 d = false := by
  rw [Bool.eq_false_iff, ne_eq, isPow2_iff]
  rintro ⟨k, hle, hk⟩
  exact h k hle hk

/-- Both counts of a power of two: its one set bit is at place `k` (R13). -/
theorem counts_of_twoPow {d : Word} {k : Nat} (hk : k < 32) (h : d.toNat = 2 ^ k) :
    clz32 d = 31 - k ∧ ctz32 d = k := by
  have hbit (i : Nat) : d.getLsbD i = decide (k = i) := by rw [BitVec.getLsbD, h, Nat.testBit_two_pow]
  have hset : d.getLsbD k = true := by rw [hbit, decide_eq_true rfl]
  have hclear (i : Nat) (hi : k ≠ i) : d.getLsbD i = false := by rw [hbit, decide_eq_false hi]
  exact ⟨leadingZerosBelow_of_highest hset hk fun i hi _ => hclear i hi.ne,
    trailingZerosFrom_of_lowest hset (Nat.zero_le k) (by omega) fun i _ hi => hclear i hi.ne'⟩

/-- The shift of a valid divisor is its logarithm (R131). -/
theorem deriveShift_of_twoPow {d : Word} {k : Nat} (hk : k ≤ 30) (h : d.toNat = 2 ^ k) : deriveShift d = k := by
  obtain ⟨hclz, -⟩ := counts_of_twoPow (by omega) h
  rw [deriveShift, hclz, Config.intW]
  omega

/-! ### The mode rotation (R132 to R136) -/

/-- UNROT is the residue (R134). -/
theorem unrot_eq (modes : Nat) (m : Int) : unrot modes m = (m + 1) % (modes : Int) := rfl

/-- ROT answers a mode of the range, whatever it is given (R132). -/
theorem rot_range {modes : Nat} (h : 0 < modes) (m : Int) : 0 ≤ rot modes m ∧ rot modes m < modes := by
  rw [rot_eq]
  exact ⟨Int.emod_nonneg _ (by omega), Int.emod_lt_of_pos _ (by omega)⟩

/-- ROT sees its argument's residue only: modes out of range wrap (R135). -/
theorem rot_emod (modes : Nat) (m : Int) : rot modes (m % modes) = rot modes m := by
  rw [rot_eq, rot_eq, Int.emod_sub_emod]

/-- UNROT undoes ROT up to the residue (R134). -/
theorem unrot_rot (modes : Nat) (m : Int) : unrot modes (rot modes m) = m % modes := by
  rw [unrot_eq, rot_eq, Int.emod_add_emod, Int.sub_add_cancel]

/-- ROT undoes UNROT up to the residue (R134). -/
theorem rot_unrot (modes : Nat) (m : Int) : rot modes (unrot modes m) = m % modes := by
  rw [unrot_eq, rot_emod, rot_eq, Int.add_sub_cancel]

/-- From 1 to `M`, ROT subtracts 1 (R133). -/
theorem rot_of_pos {modes : Nat} {k : Int} (hlow : 1 ≤ k) (hhigh : k ≤ modes) : rot modes k = k - 1 := by
  rw [rot_eq, Int.emod_eq_of_lt (by omega) (by omega)]

/-- ROT takes 0 to the last slot, as `M` has the same residue (R133). -/
theorem rot_zero {modes : Nat} (h : 0 < modes) : rot modes 0 = modes - 1 := by
  rw [← Int.emod_self (a := modes), rot_emod, rot_of_pos (by omega) le_rfl]

/-- The internal mode fits its word: `M` is at most 256 (R136). -/
theorem modeWord_rot_toNat {modes : Nat} (h : 0 < modes ∧ modes ≤ 256) (m : Int) :
    (modeWord (rot modes m)).toNat = (rot modes m).toNat := by
  obtain ⟨hlow, hhigh⟩ := rot_range h.1 m
  rw [modeWord, bits32, BitVec.toNat_ofInt]
  omega

/-! ### What the five ops answer (R139 to R144) -/

/-- DSHIFT (R140): the shift of a valid divisor, or INVALID_ARGUMENT. -/
theorem exec_dshift (d : Word) (s : State) : exec (.dshift d) s =
    if isPow2 d then .next { s with phase := .resp ⟨.ok, 5, BitVec.ofNat 32 (deriveShift d), 0⟩ 0 false }
    else .next { s with phase := .resp ⟨.invalidArgument, 5, 0, 0⟩ 0 false } := rfl

/-- MROT (R141). -/
theorem exec_mrot (m : Word) (s : State) : exec (.mrot m) s =
    .next { s with phase := .resp ⟨.ok, 6, modeWord (rot (numModes s) m.toInt), 0⟩ 0 false } := rfl

/-- MUNROT (R142). -/
theorem exec_munrot (i : Word) (s : State) : exec (.munrot i) s =
    .next { s with phase := .resp ⟨.ok, 7, modeWord (unrot (numModes s) i.toInt), 0⟩ 0 false } := rfl

/-- DISPC is the dispatch with packed strides and no repeating bias (R143). -/
theorem exec_dispc (relu biasEn : Bool) (a : DispatchArgs) (s : State) :
    exec (.dispc relu biasEn a) s = dispatch .dispc relu false biasEn a ⟨a.dimK, a.dimJ, a.dimJ, a.dimJ⟩ s := rfl

/-- DISPS is the dispatch with the request's strides and flag (R144). -/
theorem exec_disps (relu rep biasEn : Bool) (a : DispatchArgs) (st : Strides) (s : State) :
    exec (.disps relu rep biasEn a st) s = dispatch .disps relu rep biasEn a st s := rfl

/-- The dispatch the QDB accepts for an op and its operands (R139). -/
def flightOf (op : DispatchOp) (relu rep biasEn : Bool) (a : DispatchArgs) (st : Strides) (s : State) : Flight :=
  ⟨op, a.mode, buildIssued (numModes s) relu rep biasEn a st⟩

section
variable {op : DispatchOp} {relu rep biasEn : Bool} {a : DispatchArgs} {st : Strides} {s : State}

/-- A dispatch with a valid divisor is accepted (R139). -/
theorem dispatch_of_valid (h : isPow2 a.divisor = true) :
    dispatch op relu rep biasEn a st s = .next (accepted (flightOf op relu rep biasEn a st s) s) := if_pos h

/-- A dispatch with any other divisor is INVALID_ARGUMENT (R172). -/
theorem dispatch_of_invalid (h : isPow2 a.divisor = false) :
    dispatch op relu rep biasEn a st s =
      .next { s with phase := .resp ⟨.invalidArgument, dispatchOpCode op, 0, 0⟩ 0 false } :=
  if_neg (Bool.eq_false_iff.1 h)

end

/-- An accepted dispatch, written out: two records, the command, its loan, and the wait (R139, R205). -/
theorem accepted_eq (f : Flight) (s : State) : accepted f s =
    { s with
      traced := s.traced ++ [backendRecord f, dimsRecord f]
      issued := s.issued ++ [f.issued]
      loan := some f.issued.cmd
      phase := .waitExec f (.due .backend false) } := by
  simp [accepted, issue, emitTrace]

/-- The command and the select of a dispatch with the divisor `2^k`, as numbers (R136 to R138). -/
theorem buildIssued_of_twoPow {k : Nat} {a : DispatchArgs} (hk : k ≤ 30) (h : a.divisor.toNat = 2 ^ k) (modes : Nat)
    (relu rep biasEn : Bool) (st : Strides) : buildIssued modes relu rep biasEn a st =
      ⟨{ internalMode := BitVec.ofInt 32 ((a.mode.toInt - 1) % modes), dimI := a.dimI, dimJ := a.dimJ, dimK := a.dimK,
         lhs := a.lhs, rhs := a.rhs, out := a.out, bias := a.bias, strides := st,
         activation := relu, repeatingBias := rep, biasEn := biasEn, shift := BitVec.ofNat 32 k, relu6Shift := 0 },
        BitVec.ofNat 256 (2 ^ ((a.mode.toInt - 1) % (modes : Int)).toNat)⟩ := by
  rw [buildIssued, deriveShift_of_twoPow hk h, rot_eq, modeWord, bits32, oneHot]

/-- A completion leaves its response to be taken (R23). -/
theorem pendingResponse_completeDispatch (f : Flight) (ok : Bool) (err : Word) (s : State) :
    pendingResponse (completeDispatch f ok err s) =
      some ⟨if ok then .ok else .executorFailure, dispatchOpCode f.op, if ok then 0 else err, 0⟩ := by
  rw [completeDispatch_eq]
  rfl

end Sys2Proof.Machine

open Sys2Proof Sys2Proof.Machine

/-- Settles O18: `d & (d − 1)` is 0 for the powers of two only, and the sign leaves those up to `2^30`. -/
theorem pow2HoldsForThirtyOneValues : Obligations.Pow2HoldsForThirtyOneValues := isPow2_iff

/-- Settles O19: a valid divisor is some `2^k`, and `k` is what shift and counts say. -/
theorem deriveShiftIsLogarithm : Obligations.DeriveShiftIsLogarithm := by
  intro d hd
  obtain ⟨k, hk, hval⟩ := (isPow2_iff d).1 hd
  obtain ⟨hclz, hctz⟩ := counts_of_twoPow (by omega) hval
  rw [deriveShift_of_twoPow hk hval, hclz, hctz]
  exact ⟨by omega, rfl, hk, hval⟩

/-- Settles O20: ROT is the residue of `m − 1`. -/
theorem rotIsFlooredResidue : Obligations.RotIsFlooredResidue := by
  intro modes m hmodes
  obtain ⟨hlow, hhigh⟩ := rot_range hmodes m
  have hdvd : (modes : Int) ∣ m - 1 - rot modes m := by
    rw [rot_eq]
    exact Int.dvd_self_sub_emod
  exact ⟨hlow, hhigh, hdvd, (rot_emod modes m).symm⟩

/-- Settles O21: the mode that ROT takes to `i` is UNROT of `i`. -/
theorem rotIsBijectionOnModes : Obligations.RotIsBijectionOnModes := by
  intro modes hmodes
  refine ⟨rot_zero hmodes, fun k hlow hhigh => rot_of_pos hlow (by omega), fun i hlow hhigh => ?_⟩
  refine ⟨unrot modes i, ⟨Int.emod_nonneg _ (by omega), Int.emod_lt_of_pos _ (by omega), ?_⟩, ?_⟩
  · rw [rot_unrot, Int.emod_eq_of_lt hlow hhigh]
  · rintro m ⟨hm, hm', rfl⟩
    rw [unrot_rot, Int.emod_eq_of_lt hm hm']

/-- Settles O22: both compositions are the residue, which on the range is the mode itself. -/
theorem unrotInvertsRot : Obligations.UnrotInvertsRot := by
  refine fun modes m _ => ⟨unrot_eq modes m, unrot_rot modes m, rot_unrot modes m, fun hlow hhigh => ?_⟩
  rw [unrot_rot, rot_unrot, Int.emod_eq_of_lt hlow hhigh]
  exact ⟨rfl, rfl⟩

/-- Settles O23: DSHIFT by the validity of the divisor. -/
theorem dshiftValidatesAndDerives : Obligations.DshiftValidatesAndDerives := by
  refine fun d s => ⟨decode_encode (.dshift d), fun k hk hd => ?_, fun hd => ?_⟩
  · rw [exec_dshift, if_pos (isPow2_of_twoPow hk hd), deriveShift_of_twoPow hk hd]
  · rw [exec_dshift, if_neg (Bool.eq_false_iff.1 (isPow2_eq_false hd))]

/-- Settles O24: MROT answers ROT of the mode, a residue below `M`. -/
theorem mrotAnswersInternalMode : Obligations.MrotAnswersInternalMode := by
  refine fun m s => ⟨decode_encode (.mrot m), ?_, modeWord_flooredMod_lt (m.toInt - 1) (numModes_bounds s)⟩
  rw [exec_mrot, rot_eq]
  rfl

/-- Settles O25: MUNROT answers UNROT of the mode, a residue below `M`. -/
theorem munrotAnswersExternalMode : Obligations.MunrotAnswersExternalMode := by
  refine fun i s => ⟨decode_encode (.munrot i), ?_, modeWord_flooredMod_lt (i.toInt + 1) (numModes_bounds s)⟩
  rw [exec_munrot, unrot_eq]
  rfl

/-- Settles O26: the divisor is valid, so the dispatch is accepted, with packed strides. -/
theorem dispcForwardsPackedCommand : Obligations.DispcForwardsPackedCommand := by
  intro relu biasEn a s k hk hd
  rw [exec_dispc, dispatch_of_valid (isPow2_of_twoPow hk hd), accepted_eq, flightOf, buildIssued_of_twoPow hk hd]
  rfl

/-- Settles O27: the divisor is valid, so the dispatch is accepted, with the request's strides and flag. -/
theorem dispsForwardsStridedCommand : Obligations.DispsForwardsStridedCommand := by
  intro relu rep biasEn a st s k hk hd
  rw [exec_disps, dispatch_of_valid (isPow2_of_twoPow hk hd), accepted_eq, flightOf, buildIssued_of_twoPow hk hd]
  rfl

/-- Settles O29: the two dispatches differ in the op only, and their command does not depend on it. -/
theorem stridedParity : Obligations.StridedParity := by
  intro relu biasEn a s
  rw [exec_dispc, exec_disps]
  split
  · next hvalid =>
    refine ⟨_, _, _, _, modeWord (rot (numModes s) a.mode.toInt), dispatch_of_valid hvalid,
      dispatch_of_valid hvalid, rfl, rfl, ?_, ?_, rfl, rfl, fun EXEC => ⟨rfl, _, _,
        pendingResponse_completeDispatch _ _ _ _, pendingResponse_completeDispatch _ _ _ _⟩⟩
    · rw [accepted_eq]
      rfl
    · rw [accepted_eq]
      rfl
  · next hinvalid =>
    rw [Bool.not_eq_true] at hinvalid
    exact ⟨dispatch_of_invalid hinvalid, dispatch_of_invalid hinvalid⟩

/-- Settles O30: the internal mode fits its word, and the select is `1` shifted by it. -/
theorem selectIsOneHot : Obligations.SelectIsOneHot := by
  intro modes relu rep biasEn a st hmodes hmax
  obtain ⟨hlow, hhigh⟩ := rot_range hmodes a.mode.toInt
  have hword := modeWord_rot_toNat ⟨hmodes, hmax⟩ a.mode.toInt
  have hlt : (modeWord (rot modes a.mode.toInt)).toNat < modes := by omega
  exact ⟨hword, hlt, oneHot_bit (m := (rot modes a.mode.toInt).toNat) (by omega)⟩
end

section
/-! Requests answered at once and the wait for the executor (R170 to R175, R180). -/

namespace Sys2Proof.Machine

/-! ### Requests answered at once (R172 to R175) -/

/-- A packet that does not decode is answered with the received op field and nothing else (R174). -/
theorem acceptPacket_of_error {p : List Word} {x : DecodeError} (h : decode p = .error x) (s : State) :
    acceptPacket p s = .next { s with phase := .resp ⟨.illegalOperation, (p.headD 0).extractLsb' 0 4, 0, 0⟩ 0 false } := by
  rw [acceptPacket, h]
  rfl

/-- The divisor operand of an op that has one (R140, R143, R144). -/
def divisorOf : Instr → Option Word
  | .dshift d => some d
  | .dispc _ _ a => some a.divisor
  | .disps _ _ _ a _ => some a.divisor
  | _ => none

/-- The ops with a divisor, by name. -/
theorem divisorOf_eq_some_iff (i : Instr) (d : Word) :
    divisorOf i = some d ↔ i = .dshift d ∨ (∃ relu b a, i = .dispc relu b a ∧ a.divisor = d) ∨
      (∃ relu rep b a st, i = .disps relu rep b a st ∧ a.divisor = d) := by
  cases i <;> simp [divisorOf]

/-- What a dispatch answers at once is INVALID_ARGUMENT, and its divisor is why (R172). -/
theorem dispatchVerdict_rejects {modes : Nat} {op : DispatchOp} {relu rep biasEn : Bool} {a : DispatchArgs}
    {st : Strides} {r : Response} (h : dispatchVerdict modes op relu rep biasEn a st = .respond r) :
    r.status = .invalidArgument ∧ isPow2 a.divisor = false := by
  rw [dispatchVerdict_respond h]
  cases hvalid : isPow2 a.divisor with
  | false => exact ⟨rfl, rfl⟩
  | true => simp [dispatchVerdict, hvalid] at h

/-- An op that responds at once does so with INVALID_ARGUMENT for an invalid divisor, and with OK otherwise (R172). -/
theorem status_of_verdict {modes draws : Nat} {i : Instr} {r : Response} (h : verdict modes draws i = .respond r) :
    (r.status = .invalidArgument ∧ ∃ d, isPow2 d = false ∧ divisorOf i = some d) ∨
    (r.status = .ok ∧ ¬ ∃ d, isPow2 d = false ∧ divisorOf i = some d) := by
  cases i with
  | dshift d =>
    simp only [verdict] at h
    split at h
    · next hvalid => cases h; exact .inr ⟨rfl, by simp [divisorOf, hvalid]⟩
    · next hinvalid => cases h; exact .inl ⟨rfl, d, Bool.eq_false_iff.2 hinvalid, rfl⟩
  | dispc relu biasEn a =>
    obtain ⟨hstatus, hinvalid⟩ := dispatchVerdict_rejects h
    exact .inl ⟨hstatus, _, hinvalid, rfl⟩
  | disps relu rep biasEn a st =>
    obtain ⟨hstatus, hinvalid⟩ := dispatchVerdict_rejects h
    exact .inl ⟨hstatus, _, hinvalid, rfl⟩
  | quant b => simp only [verdict] at h; split at h <;> cases h <;> exact .inr ⟨rfl, by simp [divisorOf]⟩
  | qexp b | qnorm b | qshift b | mrot b | munrot b => cases h; exact .inr ⟨rfl, by simp [divisorOf]⟩

/-- A response an op has left to be taken is the one its rule states. -/
theorem verdict_of_pendingResponse {i : Instr} {s t : State} {r : Response} (h : exec i s = .next t)
    (hr : pendingResponse t = some r) : verdict (numModes s) s.draws i = .respond r := by
  obtain ⟨r', hv, hexec⟩ | ⟨f, -, hexec⟩ := exec_cases i s
  · cases hexec.symm.trans h
    cases hr
    exact hv
  · cases hexec.symm.trans h
    cases hr

/-! ### Every step answers (R170) -/

/-- Every edge leads to a next state. -/
theorem clockEdge_next (e : Edge) (s : State) : ∃ t, clockEdge e s = .next t := by
  cases hr : e.rst with
  | true => exact ⟨_, clockEdge_reset s hr⟩
  | false =>
    cases hs : s.inReset with
    | true => exact ⟨_, clockEdge_release hr hs⟩
    | false =>
      obtain ⟨u, hu, -⟩ := phaseEdge_next e { s with around := aroundAfter e s }
      exact ⟨_, (clockEdge_running hr hs).trans ((congrArg _ hu).trans (moveOn_next e u))⟩

/-! ### The wait for the executor (R180) -/

/-- Whether or not what is due is shown, the phase is the same wait. -/
theorem waitExec_shown (advance : Bool) (f : Flight) (st : Stage) :
    ∃ st', (if advance then showNext (.waitExec f st) else .waitExec f st) = .waitExec f st' := by
  cases advance with
  | false => exact ⟨st, rfl⟩
  | true => cases st <;> exact ⟨_, rfl⟩

/-- An edge without completion and reset keeps the wait: its stage moves on, and the other agents act. -/
theorem clockEdge_waiting {e : Edge} {s : State} {f : Flight} {st : Stage} (hr : e.rst = false) (hd : e.doneValid = false)
    (hs : s.inReset = false) (hp : s.phase = .waitExec f st) :
    ∃ st', clockEdge e s = .next { s with around := aroundAfter e s, phase := .waitExec f st' } := by
  obtain ⟨st', hshown⟩ := waitExec_shown e.advance f (stageAfterEdge e st)
  refine ⟨st', ?_⟩
  rw [clockEdge_running hr hs, phaseEdge_waiting (s := { s with around := aroundAfter e s }) hp hd, moveOn_next, hshown]

/-- The QDB waits for a dispatch, and no edge to come completes it or resets the QDB. -/
structure Hanging (f : Flight) (s : State) : Prop where
  running : s.inReset = false
  waits   : ∃ st, s.phase = .waitExec f st
  noEnd   : ∀ e ∈ s.inbox, e.rst = false ∧ e.doneValid = false

/-- A step keeps the QDB hanging, at a scheduled edge or a quiet one, and delivers no response. -/
theorem Hanging.step {f : Flight} {s : State} (h : Hanging f s) :
    ∃ t, step s = .next t ∧ Hanging f t ∧ t.responses = s.responses := by
  obtain ⟨hs, ⟨st, hp⟩, hnoEnd⟩ := h
  cases hi : s.inbox with
  | nil =>
    obtain ⟨st', hedge⟩ := clockEdge_waiting (e := quietEdge) rfl rfl hs hp
    exact ⟨_, (step_of_empty hi).trans hedge, ⟨hs, ⟨st', rfl⟩, hnoEnd⟩, rfl⟩
  | cons e rest =>
    rw [hi] at hnoEnd
    obtain ⟨⟨hr, hd⟩, hrest⟩ := List.forall_mem_cons.1 hnoEnd
    obtain ⟨st', hedge⟩ := clockEdge_waiting (s := { s with inbox := rest }) hr hd hs hp
    exact ⟨_, (step_of_inbox hi).trans hedge, ⟨hs, ⟨st', rfl⟩, hrest⟩, rfl⟩

/-- So does a run of any length. -/
theorem Hanging.run {f : Flight} {s : State} (h : Hanging f s) (k : Nat) :
    ∃ t, core.run k s = .next t ∧ Hanging f t ∧ t.responses = s.responses := by
  induction k generalizing s with
  | zero => exact ⟨s, rfl, h, rfl⟩
  | succ k ih =>
    obtain ⟨u, hstep, hu, hfirst⟩ := h.step
    obtain ⟨t, hrun, ht, hrest⟩ := ih hu
    exact ⟨t, (run_step hstep k).trans hrun, ht, hrest.trans hfirst⟩

end Sys2Proof.Machine

open Sys2Proof Sys2Proof.Machine Sys2Proof.Safety

/-- Settles O28: no valid divisor is given, so each of the three ops takes its rejecting branch. -/
theorem invalidDivisorIsRejected : Obligations.InvalidDivisorIsRejected := by
  rintro _ a relu rep biasEn st s rfl hd
  have hinvalid : isPow2 a.divisor = false := isPow2_eq_false hd
  rw [exec_dshift, if_neg (Bool.eq_false_iff.1 hinvalid), exec_dispc, exec_disps]
  exact ⟨rfl, dispatch_of_invalid hinvalid, dispatch_of_invalid hinvalid⟩

/-- Settles O36: the last word is taken, the packet is refused, and the response is shown exactly if `advance`. -/
theorem illegalPacketIsAnswered : Obligations.IllegalPacketIsAnswered := by
  intro s e rest before x h hr hs hp hv hl hd
  have hanswer := (phaseEdge_lastWord (s := afterOthers s e rest) hp hv hl).trans (acceptPacket_of_error hd _)
  rw [step_of_phaseEdge h hr hs hanswer]
  cases e.advance <;> rfl

/-- Settles O37: a packet that does not decode is ILLEGAL_OPERATION; for any other, the op's rule states the status. -/
theorem oneStatusInPriorityOrder : Obligations.OneStatusInPriorityOrder := by
  intro p s t r h hr
  simp only [← divisorOf_eq_some_iff]
  obtain ⟨i, hd, ha⟩ | ⟨x, hd, ha⟩ := acceptPacket_cases p s
  · have hv := verdict_of_pendingResponse (ha.symm.trans h) hr
    obtain ⟨hstatus, hdivisor⟩ | ⟨hstatus, hdivisor⟩ := status_of_verdict hv
    · simpa [hd, hstatus] using hdivisor
    · simpa [hd, hstatus] using hdivisor
  · cases ha.symm.trans h
    cases hr
    simp [hd]

/-- Settles O43: the edge keeps the wait, in which the request port is closed and no response is shown. -/
theorem waitEndsOnlyByCompletionOrReset : Obligations.WaitEndsOnlyByCompletionOrReset := by
  intro s e rest f st h hr hs hp hd
  obtain ⟨st', hedge⟩ := clockEdge_waiting (s := { s with inbox := rest }) hr hd hs hp
  refine ⟨_, st', (step_of_inbox h).trans hedge, rfl, rfl, rfl, rfl, rfl, ?_, ?_⟩
  · simp [ports, hs, requestOpen]
  · simp [ports, hs, responseOnPort]

/-- Settles O44: a hanging QDB hangs after every run, and a QDB that waits is not in `IDLE`, where runs end. -/
theorem hangLastsForever : Obligations.HangLastsForever := by
  intro k s f st hs hp hnoEnd
  obtain ⟨t, hrun, ⟨-, ⟨st', ht⟩, -⟩, hresponses⟩ := Hanging.run ⟨hs, ⟨st, hp⟩, hnoEnd⟩ k
  refine ⟨t, st', hrun, ht, hresponses, ?_⟩
  rintro ⟨-, -, hidle⟩
  cases ht.symm.trans hidle

/-- Settles O51: a step is an edge, scheduled or quiet, and every edge leads to a next state. -/
theorem everyStepAnswers : Obligations.EveryStepAnswers := by
  intro s
  cases hi : s.inbox with
  | nil => exact step_of_empty hi ▸ clockEdge_next quietEdge s
  | cons e rest => exact step_of_inbox hi ▸ clockEdge_next e { s with inbox := rest }
end

section
/-! Reset, stale completions, and what a loan and a race are due to (R200 to R205, R51). -/

namespace Sys2Proof.Machine

/-! ### A completion the phase does not take (R202) -/

/-- An edge without its completion. -/
def withoutCompletion (e : Edge) : Edge := { e with doneValid := false }

/-- Outside `WAIT_EXEC` the transfers of an edge are the same without its completion. -/
theorem phaseEdge_withoutCompletion {s : State} (h : ∀ f st, s.phase ≠ .waitExec f st) (e : Edge) :
    phaseEdge (withoutCompletion e) s = phaseEdge e s := by
  unfold phaseEdge
  cases hp : s.phase with
  | waitExec f st => exact absurd hp (h f st)
  | idle => rfl
  | recv ws => rfl
  | resp r k shown => rfl

/-- A completion outside `WAIT_EXEC` or in reset does not reach the QDB: the edge without it differs on the other
agents' side only. -/
theorem clockEdge_withoutCompletion {e : Edge} {s : State}
    (h : e.rst = true ∨ s.inReset = true ∨ ∀ f st, s.phase ≠ .waitExec f st) :
    ∃ (t : State) (r : Around), clockEdge e s = .next t ∧
      clockEdge (withoutCompletion e) s = .next { t with around := r } := by
  cases hr : e.rst with
  | true => exact ⟨_, _, clockEdge_reset s hr, clockEdge_reset s hr⟩
  | false =>
    cases hs : s.inReset with
    | true => exact ⟨_, _, clockEdge_release hr hs, clockEdge_release hr hs⟩
    | false =>
      have hp : ∀ f st, s.phase ≠ .waitExec f st := by simpa [hr, hs] using h
      obtain ⟨u, hu, -⟩ := phaseEdge_next e { s with around := aroundAfter e s }
      have hu' := (phaseEdge_withoutCompletion (s := { s with around := aroundAfter (withoutCompletion e) s }) hp
        e).trans (phaseEdge_ignores_around hu _)
      exact ⟨_, aroundAfter (withoutCompletion e) s,
        (clockEdge_running hr hs).trans ((congrArg _ hu).trans (moveOn_next e u)),
        (clockEdge_running (e := withoutCompletion e) hr hs).trans ((congrArg _ hu').trans (moveOn_next _ _))⟩

/-! ### The races after an edge (R51, R205) -/

/-- The command port presents a command in one stage of a dispatch in flight, and it is the dispatch's (R27). -/
theorem commandOnPort_eq_some_iff {p : Phase} {x : Issued} :
    commandOnPort p = some x ↔ ∃ f, p = .waitExec f (.due .command true) ∧ f.issued = x := by
  unfold commandOnPort
  split
  · next f => simp
  · next hother => exact iff_of_false nofun fun ⟨f, hp, _⟩ => hother f hp

/-- The command taken from the port at an edge is that of the dispatch whose command is presented. -/
theorem mem_takenAt {e : Edge} {p : Phase} {c : ExecCmd} :
    c ∈ takenAt e p ↔ e.cmdReady = true ∧ ∃ f, p = .waitExec f (.due .command true) ∧ f.issued.cmd = c := by
  unfold takenAt
  cases e.cmdReady <;> simp [commandOnPort_eq_some_iff]

/-- The outputs that race after an edge because of a command taken at it. -/
def takenClashes (e : Edge) (s : State) : List Region :=
  if e.rst || s.inReset then [] else (takenAt e s.phase).flatMap (clashesWith s.around.executor)

/-- They are those of the command and of a held one that overlaps. -/
theorem mem_takenClashes {e : Edge} {s : State} {x : Region} :
    x ∈ takenClashes e s ↔
      e.rst = false ∧ s.inReset = false ∧ e.cmdReady = true ∧ ∃ f, s.phase = .waitExec f (.due .command true) ∧
        ∃ h ∈ s.around.executor, outsOverlap h.cmd f.issued.cmd = true ∧
          (x = ⟨.out, h.cmd⟩ ∨ x = ⟨.out, f.issued.cmd⟩) := by
  unfold takenClashes
  cases e.rst <;> cases s.inReset <;> simp [mem_takenAt, mem_clashesWith, and_assoc]

/-- The races the ports add are those of the command taken. -/
theorem portSide_raced (e : Edge) (s : State) {r : Around} (h : r.executor = s.around.executor) :
    (portSide e s r).raced = r.raced ++ takenClashes e s := by
  unfold portSide takenClashes
  split
  · exact (List.append_nil _).symm
  · unfold commandSide takenAt
    cases commandOnPort s.phase <;> cases e.cmdReady <;> simp [sinkSide_eq, h]

/-- The races after an edge: those before, those of the duties the host's accesses break, those of a command taken. -/
theorem aroundAfter_raced_eq (e : Edge) (s : State) :
    (aroundAfter e s).raced =
      s.around.raced ++ e.hostAccesses.flatMap (brokenBy (Safety.lent s)) ++ takenClashes e s := by
  obtain ⟨hheld, -, -, -, -, hhost⟩ := hostSide_frame e s.loan s.around
  obtain ⟨-, -, -, hwrites, -⟩ := writeSide_frame e (portSide e s (hostSide e s.loan s.around))
  rw [aroundAfter, resetSide_eq, completionSide_eq, visibleSide, hwrites, portSide_raced e s hheld, hhost, Safety.lent]

/-- An access that keeps the host's duties adds no race. -/
theorem brokenBy_of_hostMay {s : State} {acc : HostAccess} (h : Safety.hostMay s acc) :
    brokenBy (Safety.lent s) acc = [] := by
  refine List.eq_nil_iff_forall_not_mem.2 fun x hx => ?_
  obtain ⟨hlent, hforbids, hin⟩ := mem_brokenBy.1 hx
  exact Bool.false_ne_true ((h x.cmd hlent x.which hforbids).symm.trans hin)

/-- Where outputs are disjoint, a command taken adds no race. -/
theorem takenClashes_of_outsDisjoint {s : State} (h : Safety.outsDisjoint s) (e : Edge) : takenClashes e s = [] := by
  refine List.eq_nil_iff_forall_not_mem.2 fun x hx => ?_
  obtain ⟨-, -, -, f, hp, k, hheld, hoverlap, -⟩ := mem_takenClashes.1 hx
  exact Bool.false_ne_true ((h f hp k hheld).symm.trans hoverlap)

/-! ### Loans (R205, R201) -/

/-- The executor keeps what it holds when it looks at its port. -/
theorem mem_portSide_of_held (e : Edge) {s : State} {h : Taken} (hh : h ∈ s.around.executor) :
    h ∈ (portSide e s s.around).executor := by
  unfold portSide
  split
  · exact hh
  · simp [commandSide_executor, sinkSide_eq, hh]

/-- At an edge without completion and reset of the executor, it keeps the commands it holds. -/
theorem mem_aroundAfter_commands_of_held {e : Edge} {s : State} (hd : e.doneValid = false) (hx : e.execRst = false)
    {h : Taken} (hh : h ∈ s.around.executor) : h.cmd ∈ (aroundAfter e s).executor.map Taken.cmd := by
  rw [aroundAfter_commands, hx, hd]
  exact List.mem_map_of_mem (mem_portSide_of_held e hh)

end Sys2Proof.Machine

namespace Sys2Proof.Safety

open Sys2Proof.Machine

/-- The buffers of a command held by the executor are on loan. -/
theorem mem_lent_of_held {s : State} {c : ExecCmd} (h : c ∈ s.around.executor.map Taken.cmd) : c ∈ lent s :=
  List.mem_append_right _ h

/-- Nothing is on loan to the dispatch of a QDB in reset. -/
theorem Inv.loan_of_inReset {s : State} (h : Inv s) (hs : s.inReset = true) : s.loan = none :=
  h.loan_of_received (before := []) (.inr ⟨h.resetIdle hs, rfl⟩)

/-- An edge's transfers leave a loan, or end it with the last word of the response (R205). -/
theorem Inv.loan_phaseEdge {s u : State} {e : Edge} {c : ExecCmd} (h : Inv s) (hloan : s.loan = some c)
    (hu : Machine.phaseEdge e s = .next u) :
    u.loan = some c ∨
      (u.loan = none ∧ u.phase = .idle ∧ ∃ r, s.phase = .resp r 2 true ∧ u.responses = s.responses ++ [r]) := by
  have lent_not_received : ∀ before, ¬ received s before := fun before hp => by
    cases (h.loan_of_received hp).symm.trans hloan
  cases hp : s.phase with
  | idle => exact absurd (.inr ⟨hp, rfl⟩) (lent_not_received [])
  | recv ws => exact absurd (.inl hp) (lent_not_received ws)
  | waitExec f st =>
    left
    cases hd : e.doneValid with
    | true => cases (phaseEdge_completion hp hd).symm.trans hu; exact hloan
    | false => cases (phaseEdge_waiting hp hd).symm.trans hu; exact hloan
  | resp r k shown =>
    by_cases ht : shown = true ∧ e.rspReady = true
    · cases (phaseEdge_taking hp ht).symm.trans hu
      obtain ⟨hshown, -⟩ := ht
      by_cases hk : k = 2
      · rw [takeResponseWord, if_pos hk, hk, hshown]
        exact .inr ⟨rfl, rfl, r, rfl, rfl⟩
      · rw [takeResponseWord, if_neg hk]
        exact .inl hloan
    · cases (phaseEdge_holding hp ht).symm.trans hu
      exact .inl hloan

/-- A step without reset does the same: what is shown next is nothing to a loan. -/
theorem Inv.loan_step {s t : State} {e : Edge} {rest : List Edge} {c : ExecCmd} (h : Inv s) (hin : s.inbox = e :: rest)
    (hr : e.rst = false) (hloan : s.loan = some c) (ht : step s = .next t) :
    t.loan = some c ∨
      (t.loan = none ∧ t.phase = .idle ∧ ∃ r, s.phase = .resp r 2 true ∧ t.responses = s.responses ++ [r]) := by
  have hs : s.inReset = false := by
    by_contra hs
    cases (h.loan_of_inReset (Bool.eq_true_of_not_eq_false hs)).symm.trans hloan
  obtain ⟨u, hu, -⟩ := phaseEdge_next e (Machine.afterOthers s e rest)
  cases (step_of_phaseEdge hin hr hs hu).symm.trans ht
  obtain hkept | ⟨hended, hidle, hdelivered⟩ := (h.afterOthers e rest).loan_phaseEdge hloan hu
  · exact .inl hkept
  · refine .inr ⟨hended, ?_, hdelivered⟩
    simp [hidle, showNext]

end Sys2Proof.Safety

open Sys2Proof Sys2Proof.Machine Sys2Proof.Safety

/-- Settles O42: an edge that does not take its completion does the same to the QDB without it. -/
theorem staleCompletionIsDiscarded : Obligations.StaleCompletionIsDiscarded := by
  intro s e rest h hstale
  obtain ⟨t, r, ht, ht'⟩ := clockEdge_withoutCompletion (s := { s with inbox := rest }) hstale
  exact ⟨t, { t with around := r }, (step_of_inbox h).trans ht, (step_of_inbox rfl).trans ht', rfl⟩

/-- Settles O49: in reset the executor takes nothing, and the step abandons the transaction. -/
theorem resetAbandonsTransaction : Obligations.ResetAbandonsTransaction := by
  intro s e rest h hr
  refine ⟨rfl, fun hx hd => ?_, fun hx => ?_, step_reset h hr⟩
  · rw [aroundAfter_commands, portSide_of_reset (.inl hr), hx, hd]
    rfl
  · rw [← List.map_eq_nil_iff (f := Taken.cmd), aroundAfter_commands, hx]
    rfl

/-- Settles O50: the edge leaves `IDLE` out of reset, and the ports show nothing but the phase. -/
theorem releaseLeavesResetState : Obligations.ReleaseLeavesResetState :=
  fun _ _ _ h hr hs => ⟨_, step_release h hr hs, rfl, rfl⟩

/-- Settles O58: the loan by the invariant, the races by the equation of `Around.raced` at an edge. -/
theorem loanLastsUntilResponseTaken : Obligations.LoanLastsUntilResponseTaken := by
  intro s t e rest hin ht
  obtain ⟨haround, -⟩ := step_around hin ht
  refine ⟨fun c hinv hr hloan => ⟨?_, hinv.loan_step hin hr hloan ht⟩, fun hd hx h hh => ⟨?_, ?_⟩, fun x => ?_,
    fun x hx a => ?_, fun hduties hdisjoint => ?_⟩
  · simp [lent, lentBy, hloan]
  · exact mem_lent_of_held (List.mem_map_of_mem hh)
  · exact mem_lent_of_held (haround ▸ mem_aroundAfter_commands_of_held hd hx hh)
  · rw [haround, aroundAfter_raced_eq, List.mem_append, List.mem_append, List.mem_flatMap, mem_takenClashes, or_assoc]
    simp only [mem_brokenBy]
  · cases ha : inBuffer x.which x.cmd a with
    | false => exact .inl rfl
    | true => exact .inr (definedByte_of_raced hx ha)
  · have hhost : e.hostAccesses.flatMap (brokenBy (lent s)) = [] :=
      List.flatMap_eq_nil_iff.2 fun acc hacc => brokenBy_of_hostMay (hduties acc hacc)
    rw [haround, aroundAfter_raced_eq, hhost, takenClashes_of_outsDisjoint hdisjoint, List.append_nil, List.append_nil]
end
